-- ==== Sys2Proof/Word.lean ====
section
/-! DEFINITION. The widths of spec/00_scope.md rule R6: registers, bytes, instruction words and low-register indices. -/

namespace Sys2Proof

/-- XLEN and ALEN: a general register, an ALU operand or result, a memory address, the pc input (R6). -/
abbrev Word := BitVec 32

/-- One byte of memory (R6, R42). -/
abbrev Byte := BitVec 8

/-- ILEN: one instruction word (R6, R59). -/
abbrev Half := BitVec 16

/-- A 3-bit low-register index, naming x[0] to x[7] by its unsigned value (R13, R73). -/
abbrev RegIdx := BitVec 3

end Sys2Proof
end

