-- ==== Sys2Proof/Config.lean ====
section
/-! DEFINITION. The parameters the spec leaves open (spec/00_scope.md R7, spec/92_eei_decisions.md D17, D18, D24, D31):
what an implementation or the launch of a run fixes. -/

namespace Sys2Proof

/-- The base a load-address form may be relative to (R96). -/
inductive AddressBase where
  /-- relative to the stack pointer -/
  | sp
  /-- relative to the program counter -/
  | pc
  deriving DecidableEq, Repr, Inhabited

namespace Config

/-- `SEL16_ADDSP_VALUE`: what `w[10:8]` is compared with inside selector 0x16 (R97, D17; log 9). -/
def sel16AddSpValue : BitVec 3 := 0b000#3

/-- `SEL16_PUSH_VALUE`: what `w[10:9]` is compared with inside selector 0x16 (R97, D17; log 9). -/
def sel16PushValue : BitVec 2 := 0b10#2

/-- `LOAD_ADDRESS_BASE_MAP` (R96, D18): OPEN in the spec, so it has no body here. The argument is the low bit of the
selector (`w[11]`). The block reports the selector and never interprets it, so nothing in the machine reads this
(log 10). -/
opaque loadAddressBaseMap : Bool → AddressBase

/-- `RESET_SR_FLAGS`: N, Z, C, V, I, F, W at the moment before the first step. The spec leaves them open and recommends
seven zeros for simulation (R39, D24). DESIGN CHOICE, unsafe (log 3). -/
def resetSrFlags : BitVec 7 := 0#7

/-- The code of the lowest-privilege mode, which the status register holds after construction (R38, D24; log 4). -/
def resetMode : BitVec 5 := 0x10#5

/-- The launch value of every low register; the spec gives none (R40, D24). DESIGN CHOICE, unsafe (log 5). -/
def launchReg : Word := 0#32

/-- The first `pc`, which the driver chooses; the spec gives none (R40, R221). DESIGN CHOICE, unsafe (log 6). -/
def launchPc : Word := 0#32

/-- What a byte of memory that nothing has placed reads as. `Mem` is an open launch parameter, total on 32-bit
addresses (R49, R56, D31). DESIGN CHOICE, unsafe (log 7). -/
def unlistedByte : Byte := 0#8

end Config

end Sys2Proof
end

