-- ==== Sys2Proof/Syntax.lean ====
section
/-! DEFINITION. The 59 decode targets as instructions: one constructor for every mnemonic of spec/opcode_table.json, in the
table's order, with exactly the fields the encoding gives it (spec/30_encoding.md R62 to R69). A stub target, an undefined
word and the software interrupt keep their payload bits, which the block passes on unread (R160). -/

namespace Sys2Proof

/-- An instruction of C16: a decode target with its fields (R74, R107). -/
inductive Instr where
  /-- LSL_IMM, R126. -/
  | lslImm (imm5 : BitVec 5) (rs : RegIdx) (rd : RegIdx)
  /-- LSR_IMM, R127. -/
  | lsrImm (imm5 : BitVec 5) (rs : RegIdx) (rd : RegIdx)
  /-- ASR_IMM, R128. -/
  | asrImm (imm5 : BitVec 5) (rs : RegIdx) (rd : RegIdx)
  /-- ADD_REG, R130. -/
  | addReg (rn : RegIdx) (rs : RegIdx) (rd : RegIdx)
  /-- SUB_REG, R132. -/
  | subReg (rn : RegIdx) (rs : RegIdx) (rd : RegIdx)
  /-- ADD_IMM3, R131. -/
  | addImm3 (imm3 : BitVec 3) (rs : RegIdx) (rd : RegIdx)
  /-- SUB_IMM3, R133. -/
  | subImm3 (imm3 : BitVec 3) (rs : RegIdx) (rd : RegIdx)
  /-- MOV_IMM8, R135. -/
  | movImm8 (rd : RegIdx) (imm8 : BitVec 8)
  /-- CMP_IMM8, R136. -/
  | cmpImm8 (rd : RegIdx) (imm8 : BitVec 8)
  /-- ADD_IMM8, R137. -/
  | addImm8 (rd : RegIdx) (imm8 : BitVec 8)
  /-- SUB_IMM8, R138. -/
  | subImm8 (rd : RegIdx) (imm8 : BitVec 8)
  /-- ALU_AND, R141. -/
  | aluAnd (rs : RegIdx) (rd : RegIdx)
  /-- ALU_EOR, R142. -/
  | aluEor (rs : RegIdx) (rd : RegIdx)
  /-- ALU_LSL, R143. -/
  | aluLsl (rs : RegIdx) (rd : RegIdx)
  /-- ALU_LSR, R144. -/
  | aluLsr (rs : RegIdx) (rd : RegIdx)
  /-- ALU_ASR, R145. -/
  | aluAsr (rs : RegIdx) (rd : RegIdx)
  /-- ALU_ADC, R146. -/
  | aluAdc (rs : RegIdx) (rd : RegIdx)
  /-- ALU_SBC, R147. -/
  | aluSbc (rs : RegIdx) (rd : RegIdx)
  /-- ALU_ROR, R148. -/
  | aluRor (rs : RegIdx) (rd : RegIdx)
  /-- ALU_TST, R149. -/
  | aluTst (rs : RegIdx) (rd : RegIdx)
  /-- ALU_NEG, R150. -/
  | aluNeg (rs : RegIdx) (rd : RegIdx)
  /-- ALU_CMP, R151. -/
  | aluCmp (rs : RegIdx) (rd : RegIdx)
  /-- ALU_CMN, R152. -/
  | aluCmn (rs : RegIdx) (rd : RegIdx)
  /-- ALU_ORR, R153. -/
  | aluOrr (rs : RegIdx) (rd : RegIdx)
  /-- ALU_MUL, R154. -/
  | aluMul (rs : RegIdx) (rd : RegIdx)
  /-- ALU_BIC, R155. -/
  | aluBic (rs : RegIdx) (rd : RegIdx)
  /-- ALU_MVN, R156. -/
  | aluMvn (rs : RegIdx) (rd : RegIdx)
  /-- HI_REG_OP, R162: "hi-register-op". -/
  | hiRegOp (payload : BitVec 10)
  /-- LDR_PC, R163: "pc-relative-load". -/
  | ldrPc (payload : BitVec 11)
  /-- STR_REG, R164: "store-word". -/
  | strReg (payload : BitVec 9)
  /-- STRH_REG, R166: "store-halfword". -/
  | strhReg (payload : BitVec 9)
  /-- STRB_REG, R165: "store-byte". -/
  | strbReg (payload : BitVec 9)
  /-- LDSB_REG, R167: "load-sign-extended-byte". -/
  | ldsbReg (payload : BitVec 9)
  /-- LDR_REG, R168: "load-word". -/
  | ldrReg (payload : BitVec 9)
  /-- LDRH_REG, R170: "load-halfword". -/
  | ldrhReg (payload : BitVec 9)
  /-- LDRB_REG, R169: "load-byte". -/
  | ldrbReg (payload : BitVec 9)
  /-- LDSH_REG, R171: "load-sign-extended-halfword". -/
  | ldshReg (payload : BitVec 9)
  /-- STR_IMM, R172: "store-word-immediate". -/
  | strImm (payload : BitVec 11)
  /-- LDR_IMM, R173: "load-word-immediate". -/
  | ldrImm (payload : BitVec 11)
  /-- STRB_IMM, R174: "store-byte-immediate". -/
  | strbImm (payload : BitVec 11)
  /-- LDRB_IMM, R175: "load-byte-immediate". -/
  | ldrbImm (payload : BitVec 11)
  /-- STRH_IMM, R176: "store-halfword-immediate". -/
  | strhImm (payload : BitVec 11)
  /-- LDRH_IMM, R177: "load-halfword-immediate". -/
  | ldrhImm (payload : BitVec 11)
  /-- STR_SP, R178: "stack-pointer-relative-store". -/
  | strSp (payload : BitVec 11)
  /-- LDR_SP, R179: "stack-pointer-relative-load". -/
  | ldrSp (payload : BitVec 11)
  /-- LOAD_ADDRESS_14, R180: "load-address", selector 0x14. -/
  | loadAddress14 (payload : BitVec 11)
  /-- LOAD_ADDRESS_15, R181: "load-address", selector 0x15. -/
  | loadAddress15 (payload : BitVec 11)
  /-- ADD_SP_OFFSET, R182: "add-offset-to-stack-pointer". -/
  | addSpOffset (payload : BitVec 8)
  /-- UNDEF_16, R197: the unhandled words of selector 0x16; the payload is `w[10:0]`, whose top three bits match neither form of the group (R97). -/
  | undef16 (payload : BitVec 11)
  /-- PUSH, R183: "push-registers". -/
  | push (payload : BitVec 9)
  /-- POP, R184: "pop-registers". -/
  | pop (payload : BitVec 11)
  /-- STMIA, R185: "store-multiple". -/
  | stmia (payload : BitVec 11)
  /-- LDMIA, R186: "load-multiple". -/
  | ldmia (payload : BitVec 11)
  /-- B_COND, R187: "conditional-branch"; the payload is `w[11:0]`, whose top four bits are never 1111 (R102). -/
  | bCond (payload : BitVec 12)
  /-- SWI, R198: "software interrupt trap". -/
  | swi (payload : BitVec 8)
  /-- B, R188: "unconditional-branch". -/
  | b (payload : BitVec 11)
  /-- UNDEFINED, R196: "undefined-instruction-trap". -/
  | undefined (payload : BitVec 11)
  /-- BL_LOW, R189: "long-branch-with-link" (low half). -/
  | blLow (payload : BitVec 11)
  /-- BL_HIGH, R190: "long-branch-with-link" (high half). -/
  | blHigh (payload : BitVec 11)
  deriving DecidableEq, Repr

end Sys2Proof
end

