-- ==== Sys2Proof/WellFormed.lean ====
section
/-! DEFINITION. Which instruction terms an instruction word can stand for. Every field has exactly the width of its bits, so
only the two targets that own a part of a selector need a check: B_COND (R102) and UNDEF_16 (R97). -/

namespace Sys2Proof

/-- `w[11:8] = 1111` under selector 0x1B is the software interrupt, so a conditional branch never has it (R102). -/
def bCondPayloadOk (payload : BitVec 12) : Bool :=
  payload.extractLsb' 8 4 != 0b1111#4

/-- A word of selector 0x16 is undefined when neither form of the group matches it (R97, third row). -/
def undef16PayloadOk (payload : BitVec 11) : Bool :=
  payload.extractLsb' 8 3 != Config.sel16AddSpValue && payload.extractLsb' 9 2 != Config.sel16PushValue

/-- The check on an instruction term: some instruction word decodes to it. -/
def Instr.wf : Instr → Bool
  | .lslImm _ _ _ => true
  | .lsrImm _ _ _ => true
  | .asrImm _ _ _ => true
  | .addReg _ _ _ => true
  | .subReg _ _ _ => true
  | .addImm3 _ _ _ => true
  | .subImm3 _ _ _ => true
  | .movImm8 _ _ => true
  | .cmpImm8 _ _ => true
  | .addImm8 _ _ => true
  | .subImm8 _ _ => true
  | .aluAnd _ _ => true
  | .aluEor _ _ => true
  | .aluLsl _ _ => true
  | .aluLsr _ _ => true
  | .aluAsr _ _ => true
  | .aluAdc _ _ => true
  | .aluSbc _ _ => true
  | .aluRor _ _ => true
  | .aluTst _ _ => true
  | .aluNeg _ _ => true
  | .aluCmp _ _ => true
  | .aluCmn _ _ => true
  | .aluOrr _ _ => true
  | .aluMul _ _ => true
  | .aluBic _ _ => true
  | .aluMvn _ _ => true
  | .hiRegOp _ => true
  | .ldrPc _ => true
  | .strReg _ => true
  | .strhReg _ => true
  | .strbReg _ => true
  | .ldsbReg _ => true
  | .ldrReg _ => true
  | .ldrhReg _ => true
  | .ldrbReg _ => true
  | .ldshReg _ => true
  | .strImm _ => true
  | .ldrImm _ => true
  | .strbImm _ => true
  | .ldrbImm _ => true
  | .strhImm _ => true
  | .ldrhImm _ => true
  | .strSp _ => true
  | .ldrSp _ => true
  | .loadAddress14 _ => true
  | .loadAddress15 _ => true
  | .addSpOffset _ => true
  | .undef16 payload => undef16PayloadOk payload
  | .push _ => true
  | .pop _ => true
  | .stmia _ => true
  | .ldmia _ => true
  | .bCond payload => bCondPayloadOk payload
  | .swi _ => true
  | .b _ => true
  | .undefined _ => true
  | .blLow _ => true
  | .blHigh _ => true

end Sys2Proof
end

