-- ==== Sys2Proof/Decode.lean ====
section
/-! DEFINITION. Decode (spec/30_encoding.md R59 to R112): the decode targets, the fields of an instruction word, the routing
of R74 as a total function, the decoder on bytes, the encoder, and the opcode table as data. -/

namespace Sys2Proof

/-- The 59 decode targets (R107), named as the spec names them. Also what `EV_UNIMPLEMENTED` carries (R161). -/
inductive Target where
  | lslImm
  | lsrImm
  | asrImm
  | addReg
  | subReg
  | addImm3
  | subImm3
  | movImm8
  | cmpImm8
  | addImm8
  | subImm8
  | aluAnd
  | aluEor
  | aluLsl
  | aluLsr
  | aluAsr
  | aluAdc
  | aluSbc
  | aluRor
  | aluTst
  | aluNeg
  | aluCmp
  | aluCmn
  | aluOrr
  | aluMul
  | aluBic
  | aluMvn
  | hiRegOp
  | ldrPc
  | strReg
  | strhReg
  | strbReg
  | ldsbReg
  | ldrReg
  | ldrhReg
  | ldrbReg
  | ldshReg
  | strImm
  | ldrImm
  | strbImm
  | ldrbImm
  | strhImm
  | ldrhImm
  | strSp
  | ldrSp
  | loadAddress14
  | loadAddress15
  | addSpOffset
  | undef16
  | push
  | pop
  | stmia
  | ldmia
  | bCond
  | swi
  | b
  | undefined
  | blLow
  | blHigh
  deriving DecidableEq, Repr

/-- The 29 stub targets of R159: decode targets whose bodies lie outside the block. -/
def Target.isStub : Target → Bool
  | .lslImm => false
  | .lsrImm => false
  | .asrImm => false
  | .addReg => false
  | .subReg => false
  | .addImm3 => false
  | .subImm3 => false
  | .movImm8 => false
  | .cmpImm8 => false
  | .addImm8 => false
  | .subImm8 => false
  | .aluAnd => false
  | .aluEor => false
  | .aluLsl => false
  | .aluLsr => false
  | .aluAsr => false
  | .aluAdc => false
  | .aluSbc => false
  | .aluRor => false
  | .aluTst => false
  | .aluNeg => false
  | .aluCmp => false
  | .aluCmn => false
  | .aluOrr => false
  | .aluMul => false
  | .aluBic => false
  | .aluMvn => false
  | .hiRegOp => true
  | .ldrPc => true
  | .strReg => true
  | .strhReg => true
  | .strbReg => true
  | .ldsbReg => true
  | .ldrReg => true
  | .ldrhReg => true
  | .ldrbReg => true
  | .ldshReg => true
  | .strImm => true
  | .ldrImm => true
  | .strbImm => true
  | .ldrbImm => true
  | .strhImm => true
  | .ldrhImm => true
  | .strSp => true
  | .ldrSp => true
  | .loadAddress14 => true
  | .loadAddress15 => true
  | .addSpOffset => true
  | .undef16 => false
  | .push => true
  | .pop => true
  | .stmia => true
  | .ldmia => true
  | .bCond => true
  | .swi => false
  | .b => true
  | .undefined => false
  | .blLow => true
  | .blHigh => true

/-- The two targets whose words are undefined (R108). -/
def Target.isUndefined : Target → Bool
  | .undefined => true
  | .undef16 => true
  | _ => false

/-- The 27 implemented instructions (R107): every target that is neither a stub, nor undefined, nor the software
interrupt. -/
def Target.isImplemented (t : Target) : Bool :=
  !t.isStub && !t.isUndefined && t != .swi

/-- The decode target an instruction belongs to. -/
def Instr.target : Instr → Target
  | .lslImm _ _ _ => .lslImm
  | .lsrImm _ _ _ => .lsrImm
  | .asrImm _ _ _ => .asrImm
  | .addReg _ _ _ => .addReg
  | .subReg _ _ _ => .subReg
  | .addImm3 _ _ _ => .addImm3
  | .subImm3 _ _ _ => .subImm3
  | .movImm8 _ _ => .movImm8
  | .cmpImm8 _ _ => .cmpImm8
  | .addImm8 _ _ => .addImm8
  | .subImm8 _ _ => .subImm8
  | .aluAnd _ _ => .aluAnd
  | .aluEor _ _ => .aluEor
  | .aluLsl _ _ => .aluLsl
  | .aluLsr _ _ => .aluLsr
  | .aluAsr _ _ => .aluAsr
  | .aluAdc _ _ => .aluAdc
  | .aluSbc _ _ => .aluSbc
  | .aluRor _ _ => .aluRor
  | .aluTst _ _ => .aluTst
  | .aluNeg _ _ => .aluNeg
  | .aluCmp _ _ => .aluCmp
  | .aluCmn _ _ => .aluCmn
  | .aluOrr _ _ => .aluOrr
  | .aluMul _ _ => .aluMul
  | .aluBic _ _ => .aluBic
  | .aluMvn _ _ => .aluMvn
  | .hiRegOp _ => .hiRegOp
  | .ldrPc _ => .ldrPc
  | .strReg _ => .strReg
  | .strhReg _ => .strhReg
  | .strbReg _ => .strbReg
  | .ldsbReg _ => .ldsbReg
  | .ldrReg _ => .ldrReg
  | .ldrhReg _ => .ldrhReg
  | .ldrbReg _ => .ldrbReg
  | .ldshReg _ => .ldshReg
  | .strImm _ => .strImm
  | .ldrImm _ => .ldrImm
  | .strbImm _ => .strbImm
  | .ldrbImm _ => .ldrbImm
  | .strhImm _ => .strhImm
  | .ldrhImm _ => .ldrhImm
  | .strSp _ => .strSp
  | .ldrSp _ => .ldrSp
  | .loadAddress14 _ => .loadAddress14
  | .loadAddress15 _ => .loadAddress15
  | .addSpOffset _ => .addSpOffset
  | .undef16 _ => .undef16
  | .push _ => .push
  | .pop _ => .pop
  | .stmia _ => .stmia
  | .ldmia _ => .ldmia
  | .bCond _ => .bCond
  | .swi _ => .swi
  | .b _ => .b
  | .undefined _ => .undefined
  | .blLow _ => .blLow
  | .blHigh _ => .blHigh

/-! ### Fields of an instruction word (R60 to R73) -/

/-- The primary selector `w[15:11]` (R61). -/
def fieldSel (w : Half) : BitVec 5 := w.extractLsb' 11 5

/-- `w[10]`: I of format AS, the split bit of selector 0x08, B of format XR (R63, R66, R67). -/
def fieldBit10 (w : Half) : Bool := w.getLsbD 10

/-- `w[9]`: S of format AS, H of format XR (R63, R67). -/
def fieldBit9 (w : Half) : Bool := w.getLsbD 9

/-- `rd` of formats SH, AS and ALU: `w[2:0]` (R62, R63, R65). -/
def fieldRd (w : Half) : RegIdx := w.extractLsb' 0 3

/-- `rs` of formats SH, AS and ALU: `w[5:3]` (R62, R63, R65). -/
def fieldRs (w : Half) : RegIdx := w.extractLsb' 3 3

/-- `rn` of format AS: `w[8:6]` (R63). -/
def fieldRn (w : Half) : RegIdx := w.extractLsb' 6 3

/-- `imm3 = w[8:6]` (R71). -/
def fieldImm3 (w : Half) : BitVec 3 := w.extractLsb' 6 3

/-- `imm5 = w[10:6]` (R70). -/
def fieldImm5 (w : Half) : BitVec 5 := w.extractLsb' 6 5

/-- `rd` of format I8: `w[10:8]` (R64). -/
def fieldRd8 (w : Half) : RegIdx := w.extractLsb' 8 3

/-- `imm8 = w[7:0]` (R72). -/
def fieldImm8 (w : Half) : BitVec 8 := w.extractLsb' 0 8

/-- The ALU sub-opcode `op = w[9:6]` (R65). -/
def fieldOp (w : Half) : BitVec 4 := w.extractLsb' 6 4

/-- The low `n` bits of the word, the payload of a stub format (R66 to R69, R160). -/
def fieldPayload (n : Nat) (w : Half) : BitVec n := w.extractLsb' 0 n

/-! ### The routing (R74 to R106) -/

/-- Selector 0x03, split by bits 10 and 9 (R78). -/
def decodeAddSub (w : Half) : Instr :=
  match fieldBit10 w, fieldBit9 w with
  | false, false => .addReg (fieldRn w) (fieldRs w) (fieldRd w)
  | true, false => .addImm3 (fieldImm3 w) (fieldRs w) (fieldRd w)
  | false, true => .subReg (fieldRn w) (fieldRs w) (fieldRd w)
  | true, true => .subImm3 (fieldImm3 w) (fieldRs w) (fieldRd w)

/-- The ALU class: the op-th name of the source's list, counting from 0 (R84). The last arm is op = 0xF: a 4-bit field
has no other value (R157, R200). -/
def decodeAlu (w : Half) : Instr :=
  match (fieldOp w).toNat with
  | 0x0 => .aluAnd (fieldRs w) (fieldRd w)
  | 0x1 => .aluEor (fieldRs w) (fieldRd w)
  | 0x2 => .aluLsl (fieldRs w) (fieldRd w)
  | 0x3 => .aluLsr (fieldRs w) (fieldRd w)
  | 0x4 => .aluAsr (fieldRs w) (fieldRd w)
  | 0x5 => .aluAdc (fieldRs w) (fieldRd w)
  | 0x6 => .aluSbc (fieldRs w) (fieldRd w)
  | 0x7 => .aluRor (fieldRs w) (fieldRd w)
  | 0x8 => .aluTst (fieldRs w) (fieldRd w)
  | 0x9 => .aluNeg (fieldRs w) (fieldRd w)
  | 0xA => .aluCmp (fieldRs w) (fieldRd w)
  | 0xB => .aluCmn (fieldRs w) (fieldRd w)
  | 0xC => .aluOrr (fieldRs w) (fieldRd w)
  | 0xD => .aluMul (fieldRs w) (fieldRd w)
  | 0xE => .aluBic (fieldRs w) (fieldRd w)
  | _ => .aluMvn (fieldRs w) (fieldRd w)

/-- Selector 0x08, split by bit 10 (R83). -/
def decodeSel08 (w : Half) : Instr :=
  match fieldBit10 w with
  | false => decodeAlu w
  | true => .hiRegOp (fieldPayload 10 w)

/-- Selector 0x0A, split by bits 10 and 9 (R86). -/
def decodeSel0A (w : Half) : Instr :=
  match fieldBit10 w, fieldBit9 w with
  | false, false => .strReg (fieldPayload 9 w)
  | true, false => .strbReg (fieldPayload 9 w)
  | false, true => .strhReg (fieldPayload 9 w)
  | true, true => .ldsbReg (fieldPayload 9 w)

/-- Selector 0x0B, split by bits 10 and 9 (R87). -/
def decodeSel0B (w : Half) : Instr :=
  match fieldBit10 w, fieldBit9 w with
  | false, false => .ldrReg (fieldPayload 9 w)
  | true, false => .ldrbReg (fieldPayload 9 w)
  | false, true => .ldrhReg (fieldPayload 9 w)
  | true, true => .ldshReg (fieldPayload 9 w)

/-- Selector 0x16: one exclusive case split, the rest undefined (R97, spec/90_conflicts.md C4). -/
def decodeSel16 (w : Half) : Instr :=
  if w.extractLsb' 8 3 = Config.sel16AddSpValue then .addSpOffset (fieldPayload 8 w)
  else if w.extractLsb' 9 2 = Config.sel16PushValue then .push (fieldPayload 9 w)
  else .undef16 (fieldPayload 11 w)

/-- Selector 0x1B: the software interrupt when `w[11:8] = 1111`, else the conditional branch (R102). -/
def decodeSel1B (w : Half) : Instr :=
  if w.extractLsb' 8 4 = 0b1111#4 then .swi (fieldPayload 8 w) else .bCond (fieldPayload 12 w)

/-- `Decode(w)` of R74, a total function of the instruction word. The last arm is selector 0x1F: a 5-bit field has no
other value. -/
def decodeWord (w : Half) : Instr :=
  match (fieldSel w).toNat with
  | 0x00 => .lslImm (fieldImm5 w) (fieldRs w) (fieldRd w)
  | 0x01 => .lsrImm (fieldImm5 w) (fieldRs w) (fieldRd w)
  | 0x02 => .asrImm (fieldImm5 w) (fieldRs w) (fieldRd w)
  | 0x03 => decodeAddSub w
  | 0x04 => .movImm8 (fieldRd8 w) (fieldImm8 w)
  | 0x05 => .cmpImm8 (fieldRd8 w) (fieldImm8 w)
  | 0x06 => .addImm8 (fieldRd8 w) (fieldImm8 w)
  | 0x07 => .subImm8 (fieldRd8 w) (fieldImm8 w)
  | 0x08 => decodeSel08 w
  | 0x09 => .ldrPc (fieldPayload 11 w)
  | 0x0A => decodeSel0A w
  | 0x0B => decodeSel0B w
  | 0x0C => .strImm (fieldPayload 11 w)
  | 0x0D => .ldrImm (fieldPayload 11 w)
  | 0x0E => .strbImm (fieldPayload 11 w)
  | 0x0F => .ldrbImm (fieldPayload 11 w)
  | 0x10 => .strhImm (fieldPayload 11 w)
  | 0x11 => .ldrhImm (fieldPayload 11 w)
  | 0x12 => .strSp (fieldPayload 11 w)
  | 0x13 => .ldrSp (fieldPayload 11 w)
  | 0x14 => .loadAddress14 (fieldPayload 11 w)
  | 0x15 => .loadAddress15 (fieldPayload 11 w)
  | 0x16 => decodeSel16 w
  | 0x17 => .pop (fieldPayload 11 w)
  | 0x18 => .stmia (fieldPayload 11 w)
  | 0x19 => .ldmia (fieldPayload 11 w)
  | 0x1A => .bCond (fieldPayload 12 w)
  | 0x1B => decodeSel1B w
  | 0x1C => .b (fieldPayload 11 w)
  | 0x1D => .undefined (fieldPayload 11 w)
  | 0x1E => .blLow (fieldPayload 11 w)
  | _ => .blHigh (fieldPayload 11 w)

/-! ### Bytes (R43, R60) -/

/-- The instruction word of a low and a high byte: `w = hi8 : lo8` (R60). -/
def wordOfBytes (lo8 hi8 : Byte) : Half := hi8 ++ lo8

/-- `lo8 = w[7:0]` (R60). -/
def lowByte (w : Half) : Byte := w.extractLsb' 0 8

/-- `hi8 = w[15:8]` (R60). -/
def highByte (w : Half) : Byte := w.extractLsb' 8 8

/-- Why bytes do not decode. Every 16-bit word has a target (R107), so the only reason is that a word is not there. -/
inductive DecodeError where
  /-- fewer than two bytes were given -/
  | truncated
  deriving DecidableEq, Repr

/-- The decoder on a byte stream, low byte first (R43, R59): the instruction and the bytes after it. -/
def decode : List Byte → Except DecodeError (Instr × List Byte)
  | lo8 :: hi8 :: rest => .ok (decodeWord (wordOfBytes lo8 hi8), rest)
  | _ => .error .truncated

/-- The decoder on an instruction word numbered as spec/opcode_table.json numbers it: bit 0 is the least significant bit
of the one 16-bit word, and every bit at or above `nbits` is 0. -/
def tableWord (nbits w : Nat) : Half := BitVec.ofNat 16 (w % 2 ^ min nbits 16)

/-- What the decoder reads from the word, laid out as the hardware stores it: low byte first (R43). -/
def decodeTableWord (nbits w : Nat) : Option Instr :=
  match decode [lowByte (tableWord nbits w), highByte (tableWord nbits w)] with
  | .ok (i, _) => some i
  | .error _ => none

/-! ### The encoder, from the layouts of R62 to R69 and the match values of the instruction rules -/

/-- The instruction word of a well-formed instruction. -/
def encode : Instr → Half
  | .lslImm imm5 rs rd => 0b00000#5 ++ imm5 ++ rs ++ rd
  | .lsrImm imm5 rs rd => 0b00001#5 ++ imm5 ++ rs ++ rd
  | .asrImm imm5 rs rd => 0b00010#5 ++ imm5 ++ rs ++ rd
  | .addReg rn rs rd => 0b00011#5 ++ 0#1 ++ 0#1 ++ rn ++ rs ++ rd
  | .subReg rn rs rd => 0b00011#5 ++ 0#1 ++ 1#1 ++ rn ++ rs ++ rd
  | .addImm3 imm3 rs rd => 0b00011#5 ++ 1#1 ++ 0#1 ++ imm3 ++ rs ++ rd
  | .subImm3 imm3 rs rd => 0b00011#5 ++ 1#1 ++ 1#1 ++ imm3 ++ rs ++ rd
  | .movImm8 rd imm8 => 0b00100#5 ++ rd ++ imm8
  | .cmpImm8 rd imm8 => 0b00101#5 ++ rd ++ imm8
  | .addImm8 rd imm8 => 0b00110#5 ++ rd ++ imm8
  | .subImm8 rd imm8 => 0b00111#5 ++ rd ++ imm8
  | .aluAnd rs rd => 0b01000#5 ++ 0#1 ++ 0x0#4 ++ rs ++ rd
  | .aluEor rs rd => 0b01000#5 ++ 0#1 ++ 0x1#4 ++ rs ++ rd
  | .aluLsl rs rd => 0b01000#5 ++ 0#1 ++ 0x2#4 ++ rs ++ rd
  | .aluLsr rs rd => 0b01000#5 ++ 0#1 ++ 0x3#4 ++ rs ++ rd
  | .aluAsr rs rd => 0b01000#5 ++ 0#1 ++ 0x4#4 ++ rs ++ rd
  | .aluAdc rs rd => 0b01000#5 ++ 0#1 ++ 0x5#4 ++ rs ++ rd
  | .aluSbc rs rd => 0b01000#5 ++ 0#1 ++ 0x6#4 ++ rs ++ rd
  | .aluRor rs rd => 0b01000#5 ++ 0#1 ++ 0x7#4 ++ rs ++ rd
  | .aluTst rs rd => 0b01000#5 ++ 0#1 ++ 0x8#4 ++ rs ++ rd
  | .aluNeg rs rd => 0b01000#5 ++ 0#1 ++ 0x9#4 ++ rs ++ rd
  | .aluCmp rs rd => 0b01000#5 ++ 0#1 ++ 0xA#4 ++ rs ++ rd
  | .aluCmn rs rd => 0b01000#5 ++ 0#1 ++ 0xB#4 ++ rs ++ rd
  | .aluOrr rs rd => 0b01000#5 ++ 0#1 ++ 0xC#4 ++ rs ++ rd
  | .aluMul rs rd => 0b01000#5 ++ 0#1 ++ 0xD#4 ++ rs ++ rd
  | .aluBic rs rd => 0b01000#5 ++ 0#1 ++ 0xE#4 ++ rs ++ rd
  | .aluMvn rs rd => 0b01000#5 ++ 0#1 ++ 0xF#4 ++ rs ++ rd
  | .hiRegOp payload => 0b01000#5 ++ 1#1 ++ payload
  | .ldrPc payload => 0b01001#5 ++ payload
  | .strReg payload => 0b01010#5 ++ 0#1 ++ 0#1 ++ payload
  | .strhReg payload => 0b01010#5 ++ 0#1 ++ 1#1 ++ payload
  | .strbReg payload => 0b01010#5 ++ 1#1 ++ 0#1 ++ payload
  | .ldsbReg payload => 0b01010#5 ++ 1#1 ++ 1#1 ++ payload
  | .ldrReg payload => 0b01011#5 ++ 0#1 ++ 0#1 ++ payload
  | .ldrhReg payload => 0b01011#5 ++ 0#1 ++ 1#1 ++ payload
  | .ldrbReg payload => 0b01011#5 ++ 1#1 ++ 0#1 ++ payload
  | .ldshReg payload => 0b01011#5 ++ 1#1 ++ 1#1 ++ payload
  | .strImm payload => 0b01100#5 ++ payload
  | .ldrImm payload => 0b01101#5 ++ payload
  | .strbImm payload => 0b01110#5 ++ payload
  | .ldrbImm payload => 0b01111#5 ++ payload
  | .strhImm payload => 0b10000#5 ++ payload
  | .ldrhImm payload => 0b10001#5 ++ payload
  | .strSp payload => 0b10010#5 ++ payload
  | .ldrSp payload => 0b10011#5 ++ payload
  | .loadAddress14 payload => 0b10100#5 ++ payload
  | .loadAddress15 payload => 0b10101#5 ++ payload
  | .addSpOffset payload => 0b10110#5 ++ Config.sel16AddSpValue ++ payload
  | .undef16 payload => 0b10110#5 ++ payload
  | .push payload => 0b10110#5 ++ Config.sel16PushValue ++ payload
  | .pop payload => 0b10111#5 ++ payload
  | .stmia payload => 0b11000#5 ++ payload
  | .ldmia payload => 0b11001#5 ++ payload
  | .bCond payload => 0b1101#4 ++ payload
  | .swi payload => 0b11011#5 ++ 0b111#3 ++ payload
  | .b payload => 0b11100#5 ++ payload
  | .undefined payload => 0b11101#5 ++ payload
  | .blLow payload => 0b11110#5 ++ payload
  | .blHigh payload => 0b11111#5 ++ payload

/-- The two bytes of an instruction as memory holds them: low byte first (R43). -/
def encodeBytes (i : Instr) : List Byte := [lowByte (encode i), highByte (encode i)]

/-! ### spec/opcode_table.json as data (R107) -/

/-- One row of the table: a word is of the row's target when its bits under `mask` are `pattern`. -/
structure Row where
  target : Target
  mask : Half
  pattern : Half
  deriving DecidableEq, Repr

/-- The word matches the row. -/
def Row.holds (r : Row) (w : Half) : Bool := w &&& r.mask == r.pattern

/-- Rows 1 to 16 of the table. -/
def opcodeRows0 : List Row :=
  [⟨.lslImm, 0xF800#16, 0x0000#16⟩,
   ⟨.lsrImm, 0xF800#16, 0x0800#16⟩,
   ⟨.asrImm, 0xF800#16, 0x1000#16⟩,
   ⟨.addReg, 0xFE00#16, 0x1800#16⟩,
   ⟨.subReg, 0xFE00#16, 0x1A00#16⟩,
   ⟨.addImm3, 0xFE00#16, 0x1C00#16⟩,
   ⟨.subImm3, 0xFE00#16, 0x1E00#16⟩,
   ⟨.movImm8, 0xF800#16, 0x2000#16⟩,
   ⟨.cmpImm8, 0xF800#16, 0x2800#16⟩,
   ⟨.addImm8, 0xF800#16, 0x3000#16⟩,
   ⟨.subImm8, 0xF800#16, 0x3800#16⟩,
   ⟨.aluAnd, 0xFFC0#16, 0x4000#16⟩,
   ⟨.aluEor, 0xFFC0#16, 0x4040#16⟩,
   ⟨.aluLsl, 0xFFC0#16, 0x4080#16⟩,
   ⟨.aluLsr, 0xFFC0#16, 0x40C0#16⟩,
   ⟨.aluAsr, 0xFFC0#16, 0x4100#16⟩]

/-- Rows 17 to 32 of the table. -/
def opcodeRows1 : List Row :=
  [⟨.aluAdc, 0xFFC0#16, 0x4140#16⟩,
   ⟨.aluSbc, 0xFFC0#16, 0x4180#16⟩,
   ⟨.aluRor, 0xFFC0#16, 0x41C0#16⟩,
   ⟨.aluTst, 0xFFC0#16, 0x4200#16⟩,
   ⟨.aluNeg, 0xFFC0#16, 0x4240#16⟩,
   ⟨.aluCmp, 0xFFC0#16, 0x4280#16⟩,
   ⟨.aluCmn, 0xFFC0#16, 0x42C0#16⟩,
   ⟨.aluOrr, 0xFFC0#16, 0x4300#16⟩,
   ⟨.aluMul, 0xFFC0#16, 0x4340#16⟩,
   ⟨.aluBic, 0xFFC0#16, 0x4380#16⟩,
   ⟨.aluMvn, 0xFFC0#16, 0x43C0#16⟩,
   ⟨.hiRegOp, 0xFC00#16, 0x4400#16⟩,
   ⟨.ldrPc, 0xF800#16, 0x4800#16⟩,
   ⟨.strReg, 0xFE00#16, 0x5000#16⟩,
   ⟨.strhReg, 0xFE00#16, 0x5200#16⟩,
   ⟨.strbReg, 0xFE00#16, 0x5400#16⟩]

/-- Rows 33 to 48 of the table. -/
def opcodeRows2 : List Row :=
  [⟨.ldsbReg, 0xFE00#16, 0x5600#16⟩,
   ⟨.ldrReg, 0xFE00#16, 0x5800#16⟩,
   ⟨.ldrhReg, 0xFE00#16, 0x5A00#16⟩,
   ⟨.ldrbReg, 0xFE00#16, 0x5C00#16⟩,
   ⟨.ldshReg, 0xFE00#16, 0x5E00#16⟩,
   ⟨.strImm, 0xF800#16, 0x6000#16⟩,
   ⟨.ldrImm, 0xF800#16, 0x6800#16⟩,
   ⟨.strbImm, 0xF800#16, 0x7000#16⟩,
   ⟨.ldrbImm, 0xF800#16, 0x7800#16⟩,
   ⟨.strhImm, 0xF800#16, 0x8000#16⟩,
   ⟨.ldrhImm, 0xF800#16, 0x8800#16⟩,
   ⟨.strSp, 0xF800#16, 0x9000#16⟩,
   ⟨.ldrSp, 0xF800#16, 0x9800#16⟩,
   ⟨.loadAddress14, 0xF800#16, 0xA000#16⟩,
   ⟨.loadAddress15, 0xF800#16, 0xA800#16⟩,
   ⟨.addSpOffset, 0xFF00#16, 0xB000#16⟩]

/-- Rows 49 to 64 of the table. -/
def opcodeRows3 : List Row :=
  [⟨.undef16, 0xFF00#16, 0xB100#16⟩,
   ⟨.undef16, 0xFE00#16, 0xB200#16⟩,
   ⟨.push, 0xFE00#16, 0xB400#16⟩,
   ⟨.undef16, 0xFE00#16, 0xB600#16⟩,
   ⟨.pop, 0xF800#16, 0xB800#16⟩,
   ⟨.stmia, 0xF800#16, 0xC000#16⟩,
   ⟨.ldmia, 0xF800#16, 0xC800#16⟩,
   ⟨.bCond, 0xF800#16, 0xD000#16⟩,
   ⟨.bCond, 0xFC00#16, 0xD800#16⟩,
   ⟨.bCond, 0xFE00#16, 0xDC00#16⟩,
   ⟨.bCond, 0xFF00#16, 0xDE00#16⟩,
   ⟨.swi, 0xFF00#16, 0xDF00#16⟩,
   ⟨.b, 0xF800#16, 0xE000#16⟩,
   ⟨.undefined, 0xF800#16, 0xE800#16⟩,
   ⟨.blLow, 0xF800#16, 0xF000#16⟩,
   ⟨.blHigh, 0xF800#16, 0xF800#16⟩]

/-- The 64 rows of spec/opcode_table.json, in its order. -/
def opcodeTable : List Row := opcodeRows0 ++ opcodeRows1 ++ opcodeRows2 ++ opcodeRows3

end Sys2Proof
end

