-- ==== Sys2Proof/Machine/State.lean ====
section
/-! DEFINITION. The state of the block, of the collaborators it borrows from, and of the reference driver: eight low
registers, the status register, the memory, the `pc` the driver presents, and the event port. Plain data throughout. -/

namespace Sys2Proof.Machine

/-- The status register `SR`, field by field (R21, R22). Bits 27:8 of the status word are not state (R32). -/
structure StatusRegister where
  /-- negative, bit 31 -/
  n : Bool
  /-- zero, bit 30 -/
  z : Bool
  /-- carry, bit 29 -/
  c : Bool
  /-- overflow, bit 28 -/
  v : Bool
  /-- irqDisabled, bit 7 (R25) -/
  i : Bool
  /-- fiqDisabled, bit 6 (R25) -/
  f : Bool
  /-- wideMode, bit 5: false means the 16-bit subset is active (R26) -/
  w : Bool
  /-- mode, bits 4:0: any of the 32 codes (R28) -/
  m : BitVec 5
  deriving DecidableEq, Repr

/-- What a step reports to the driver (R201). -/
inductive Event where
  /-- `EV_NONE`, code 0: an implemented instruction completed -/
  | evNone
  /-- `EV_UNDEFINED`, code 1: an undefined instruction word and its address (R202) -/
  | evUndefined (word : Half) (pc : Word)
  /-- `EV_SWI`, code 2: the software interrupt's word and its address (R203) -/
  | evSwi (word : Half) (pc : Word)
  /-- `EV_UNIMPLEMENTED`, code 3: a stub target, its word and its address (R204) -/
  | evUnimplemented (target : Target) (word : Half) (pc : Word)
  deriving DecidableEq, Repr

/-- Memory: (address, byte) cells, addresses strictly rising, no cell holding what an unlisted address reads as. -/
abbrev Memory := List Host.Cell

/-- Everything the spec gives the machine. `x`, `sr` are what the block reads and writes (R9); `mem` and `pc` are its
inputs (R17, R37), kept here for the collaborators that own them; `event` is its output port (R201, D1), at which the
reference driver looks to see whether the run goes on (R20). -/
structure State where
  /-- the low registers x[0] to x[7] (R13) -/
  regs : Vector Word 8
  /-- the status register (R21) -/
  sr : StatusRegister
  /-- the address the driver presents to the next step (R17, R20) -/
  pc : Word
  /-- the byte-addressed memory behind `readByte` (R37, R42) -/
  mem : Memory
  /-- the event the last step reported; `evNone` before the first (R201; log 2) -/
  event : Event
  deriving DecidableEq, Repr

/-- Why a run has stopped with a fault. -/
inductive Fault where
  /-- Raised by `step` alone, never by an instruction's meaning: the step before reported `EV_UNDEFINED` for this word at
  this address, so the run has ended (R199, R230, spec/93_implementation_defined.md U3). Safe: the machine makes no
  step of which the spec says nothing. -/
  | runEndedUndefined (word : Half) (pc : Word)
  deriving DecidableEq, Repr

/-- Why the model gives no step. -/
inductive Refusal where
  /-- Raised by `exec` for an instruction that has no meaning yet; no arm raises it now. Safe. -/
  | notModelled (mnemonic : String)
  /-- Raised by `step` when it would run with `SR.W = 1`: the 32-bit set is out of scope (R110, R224, U13). Safe. -/
  | wideMode
  /-- Raised by `step` alone: the step before reported `EV_SWI`; what the trap does is not the block's (R198, R210, U4).
  Safe. -/
  | runEndedSwi (word : Half) (pc : Word)
  /-- Raised by `step` alone: the step before reported `EV_UNIMPLEMENTED`; the instruction's body lies outside the block
  (R161, U6). Safe. -/
  | runEndedUnimplemented (target : Target) (word : Half) (pc : Word)
  deriving DecidableEq, Repr

/-- The outcome of a step or of a meaning. -/
abbrev Result := Host.Outcome State Fault Refusal

/-- The status register after construction: the mode of R38, the other fields from `RESET_SR_FLAGS` (R39). -/
def StatusRegister.reset : StatusRegister :=
  { n := Config.resetSrFlags.getLsbD 6, z := Config.resetSrFlags.getLsbD 5, c := Config.resetSrFlags.getLsbD 4,
    v := Config.resetSrFlags.getLsbD 3, i := Config.resetSrFlags.getLsbD 2, f := Config.resetSrFlags.getLsbD 1,
    w := Config.resetSrFlags.getLsbD 0, m := Config.resetMode }

/-- The moment before the first step of a run (R219): launch values where the spec leaves them open (R39, R40). -/
def State.reset : State :=
  { regs := Vector.replicate 8 Config.launchReg, sr := StatusRegister.reset, pc := Config.launchPc, mem := [],
    event := .evNone }

end Sys2Proof.Machine
end

