-- ==== Sys2Proof/Machine/Ops.lean ====
section
/-! DEFINITION. The named operations over registers, memory, the status word and the event port, which every meaning and the
step go through: the capabilities lent to the block (R14, R41), `load` and `save` (R29, R30), fetching (R43), retiring an
instruction, reporting an event (R210), and what the reference driver does between steps (R20, R212). -/

namespace Sys2Proof.Machine

/-! ### Memory -/

/-- The canonical form from address `lo` on: addresses strictly rise and are 32-bit addresses (R42), and no cell holds
what an unlisted address reads as. -/
def Memory.wfFrom : Nat → Memory → Bool
  | _, [] => true
  | lo, (a, b) :: rest =>
    decide (lo ≤ a) && decide (a < 2 ^ 32) && b != Config.unlistedByte && Memory.wfFrom (a + 1) rest

/-- The canonical form of the memory. -/
def Memory.wf (m : Memory) : Bool := Memory.wfFrom 0 m

/-- The byte at an address: the listed one, else what an unlisted address reads as (R49). -/
def Memory.read : Memory → Nat → Byte
  | [], _ => Config.unlistedByte
  | (a, b) :: rest, k => if a = k then b else Memory.read rest k

/-- Put a cell in front unless it holds what an unlisted address reads as. -/
def Memory.consCell (k : Nat) (v : Byte) (rest : Memory) : Memory :=
  if v = Config.unlistedByte then rest else (k, v) :: rest

/-- Write one byte and keep the canonical form. The block has no such capability (R42): this is the CPU core's or the
loader's (R54). -/
def Memory.write : Memory → Nat → Byte → Memory
  | [], k, v => Memory.consCell k v []
  | (a, b) :: rest, k, v =>
    if a < k then (a, b) :: Memory.write rest k v
    else if a = k then Memory.consCell k v rest
    else Memory.consCell k v ((a, b) :: rest)

/-- `readByte(address)`: total on 32-bit addresses, raising nothing (R41, R56). -/
def State.readByte (s : State) (a : Word) : Byte := Memory.read s.mem a.toNat

/-- A party outside the block changes one byte of memory (R54). -/
def State.pokeByte (s : State) (a : Word) (b : Byte) : State := { s with mem := Memory.write s.mem a.toNat b }

/-! ### Low registers -/

/-- `getLowReg(index)`, written `x[i]` in the spec (R14). -/
def State.x (s : State) (i : RegIdx) : Word := s.regs[i.toNat]'(by have := i.isLt; omega)

/-- The register file with register `i` replaced. -/
def setReg (regs : Vector Word 8) (i : RegIdx) (value : Word) : Vector Word 8 :=
  regs.set i.toNat value (by have := i.isLt; omega)

/-- The index a register setter takes from a byte that may hold other packed fields: its low three bits (R14, R73). -/
def lowIndex (packed : Byte) : RegIdx := packed.extractLsb' 0 3

/-- `setLowReg(index, value)`: the setter masks the index to 3 bits itself (R14). -/
def State.setLowReg (s : State) (packed : Byte) (value : Word) : State :=
  { s with regs := setReg s.regs (lowIndex packed) value }

/-! ### The status word -/

/-- `load(word)`: every field from its bit, reserved bits discarded, no check on the mode code (R28, R29, R32). -/
def StatusRegister.load (word : Word) : StatusRegister :=
  { n := word.getLsbD 31, z := word.getLsbD 30, c := word.getLsbD 29, v := word.getLsbD 28,
    i := word.getLsbD 7, f := word.getLsbD 6, w := word.getLsbD 5, m := word.extractLsb' 0 5 }

/-- `save()`: the inverse mapping, reserved bits zero (R30). -/
def StatusRegister.save (sr : StatusRegister) : Word :=
  BitVec.ofBool sr.n ++ BitVec.ofBool sr.z ++ BitVec.ofBool sr.c ++ BitVec.ofBool sr.v ++ 0#20 ++
    BitVec.ofBool sr.i ++ BitVec.ofBool sr.f ++ BitVec.ofBool sr.w ++ sr.m

/-- The seven defined operating-mode codes (R27). -/
def definedModes : List (BitVec 5) := [0x10#5, 0x11#5, 0x12#5, 0x13#5, 0x17#5, 0x1B#5, 0x1F#5]

/-- The mode code is one of the seven defined ones: kept by the CPU core, not enforced by the block (R28). -/
def StatusRegister.modeDefined (sr : StatusRegister) : Bool := definedModes.contains sr.m

/-- The CPU core's `load` on the block, between two steps (R33). -/
def State.load (s : State) (word : Word) : State := { s with sr := StatusRegister.load word }

/-- The CPU core's `save` on the block, between two steps; it changes no state (R30, R33). -/
def State.save (s : State) : Word := s.sr.save

/-! ### Fetching -/

/-- `Fetch(pc)`: low byte at `pc`, high byte at `(pc + 1) mod 2^32`, any `pc`, even or odd (R19, R43, R45). -/
def State.fetch (s : State) (pc : Word) : Half := wordOfBytes (s.readByte pc) (s.readByte (pc + 1))

/-- Place an instruction word where `Fetch(pc)` reads it. -/
def State.placeWord (s : State) (pc : Word) (w : Half) : State :=
  (s.pokeByte pc (lowByte w)).pokeByte (pc + 1) (highByte w)

/-! ### Retiring an instruction: all reads of an instruction precede these writes (R11) -/

/-- Write the result to `x[rd]` and the status register, and report `EV_NONE` (R124, R201). -/
def State.writeResult (s : State) (rd : RegIdx) (out : Word × StatusRegister) : State :=
  { s with regs := setReg s.regs rd out.1, sr := out.2, event := .evNone }

/-- Write the status register only, discard the result, and report `EV_NONE` (R113, R157, R201). -/
def State.writeFlags (s : State) (out : Word × StatusRegister) : State :=
  { s with sr := out.2, event := .evNone }

/-! ### Events: the block's whole trap entry (R210), and what follows it -/

/-- `raise Event(info)`: report the event and write nothing else, no register, no field of `SR`, no stack, no pc
(R161, R196 to R198, R210). -/
def State.raise (s : State) (e : Event) : State := { s with event := e }

/-- The spec's code of an event (R201). -/
def Event.code : Event → Nat
  | .evNone => 0
  | .evUndefined _ _ => 1
  | .evSwi _ _ => 2
  | .evUnimplemented _ _ _ => 3

/-- The driver calls `Step(pc)`: it presents an address and listens for a new event. The reference driver does so at its
own `pc`; a CPU core that has handled an event may resume at any (R17, R212). The block has no return-from-trap of its own
(R212). -/
def State.present (s : State) (pc : Word) : State := { s with pc := pc, event := .evNone }

/-- Whether, and how, the run has ended: after any event but `EV_NONE` the reference driver stops (R20, R230), and the
model makes no further step (spec/93_implementation_defined.md U3, U4, U6; logs 12 and 13). -/
def Event.ended : Event → Option Result
  | .evNone => none
  | .evUndefined word pc => some (.fault (.runEndedUndefined word pc))
  | .evSwi word pc => some (.refused (.runEndedSwi word pc))
  | .evUnimplemented target word pc => some (.refused (.runEndedUnimplemented target word pc))

/-- `Step` is defined only for `SR.W = 0` (R110, R224). -/
def State.wideRefusal (s : State) : Option Result :=
  match s.sr.w with
  | true => some (.refused .wideMode)
  | false => none

/-- The reference driver after a step: the next `pc` is `(pc + 2) mod 2^32` after `EV_NONE` and stays after any other
event (R20). -/
def State.advance (s : State) : State :=
  match s.event with
  | .evNone => { s with pc := s.pc + 2 }
  | _ => s

/-- The reference driver applied to an outcome. -/
def advanceResult : Result → Result
  | .next t => .next t.advance
  | .fault r => .fault r
  | .refused r => .refused r

end Sys2Proof.Machine
end

