-- ==== Sys2Proof/Machine/Operands.lean ====
section
/-! DEFINITION. The operand forms (spec/30_encoding.md R70 to R73, spec/44_alu_operations.md R139, R140). -/

namespace Sys2Proof.Machine

/-- `zext_32(imm3)`, 0 to 7 (R71). -/
def zextImm3 (imm3 : BitVec 3) : Word := imm3.setWidth 32

/-- `zext_32(imm8)`, 0 to 255, never negative (R72). -/
def zextImm8 (imm8 : BitVec 8) : Word := imm8.setWidth 32

/-- The amount of LSL_IMM: the field itself, 0 to 31 (R70). -/
def leftShiftAmount (imm5 : BitVec 5) : Nat := imm5.toNat

/-- The amount of LSR_IMM and ASR_IMM: a literal 0 is read as 32 (R70). -/
def rightShiftAmount (imm5 : BitVec 5) : Nat := if imm5 = 0#5 then 32 else imm5.toNat

/-- A register-held shift or rotate amount: the low 8 bits of the source register, 0 to 255, not masked further (R118,
R143; for the rotate R148). -/
def registerAmount (source : Word) : Nat := (source.extractLsb' 0 8).toNat

end Sys2Proof.Machine
end

