-- ==== Sys2Proof/Machine/Flags.lean ====
section
/-! DEFINITION. The datapath functions of spec/40_datapath_functions.md (R113 to R123) and the special flag rules of MOV, NEG
and MUL. Each takes the status register and returns the 32-bit result beside the status register it leaves; a flag it does
not name keeps its value (R124). -/

namespace Sys2Proof.Machine

/-- `NZ(r)`: N is bit 31 of the result, Z says it is zero (R113). -/
def setNZ (sr : StatusRegister) (r : Word) : StatusRegister := { sr with n := r.getLsbD 31, z := r == 0#32 }

/-! ### The shifter: (result, carry-out) of a value, an amount and the current carry -/

/-- `ShiftLSL(v, n, c)` (R114). -/
def shiftLSL (v : Word) (n : Nat) (c : Bool) : Word × Bool :=
  if n = 0 then (v, c)
  else if n < 32 then (v <<< n, v.getLsbD (32 - n))
  else if n = 32 then (0#32, v.getLsbD 0)
  else (0#32, false)

/-- `ShiftLSR(v, n, c)` (R115). -/
def shiftLSR (v : Word) (n : Nat) (c : Bool) : Word × Bool :=
  if n = 0 then (v, c)
  else if n < 32 then (v >>> n, v.getLsbD (n - 1))
  else if n = 32 then (0#32, v.getLsbD 31)
  else (0#32, false)

/-- `ShiftASR(v, n, c)` (R116). -/
def shiftASR (v : Word) (n : Nat) (c : Bool) : Word × Bool :=
  if n = 0 then (v, c)
  else if n < 32 then (v.sshiftRight n, v.getLsbD (n - 1))
  else if v.getLsbD 31 then (0xFFFFFFFF#32, true)
  else (0#32, false)

/-- `RotROR(v, n, c)`: the amount is reduced modulo 32, the incoming carry is never used, and a reduced amount of 0
writes the carry from bit 31 (R117). -/
def rotROR (v : Word) (n : Nat) (_c : Bool) : Word × Bool :=
  if n % 32 = 0 then (v, v.getLsbD 31)
  else ((v >>> (n % 32)) ||| (v <<< (32 - n % 32)), v.getLsbD (n % 32 - 1))

/-- What the caller of a shift or rotate function writes: the result, `SR.C <- carry-out`, then `NZ(result)`; V is
untouched (spec/40_datapath_functions.md section 3). -/
def shiftOut (sr : StatusRegister) (out : Word × Bool) : Word × StatusRegister :=
  (out.1, setNZ { sr with c := out.2 } out.1)

/-! ### Add and subtract -/

/-- The 33-bit unsigned sum `zext_33(a) + zext_33(b) + cin` (R119). -/
def sum33 (a b : Word) (cin : Bool) : BitVec 33 :=
  a.setWidth 33 + b.setWidth 33 + (BitVec.ofBool cin).setWidth 33

/-- `AddC(a, b, cin)`: result and all four flags (R119, R123). -/
def addC (sr : StatusRegister) (a b : Word) (cin : Bool) : Word × StatusRegister :=
  let u := sum33 a b cin
  let r : Word := u.extractLsb' 0 32
  (r, { setNZ sr r with
        c := u.getLsbD 32
        v := a.getLsbD 31 == b.getLsbD 31 && r.getLsbD 31 != a.getLsbD 31 })

/-- `SubC(a, b, cin)`, `a - b - (1 - cin)`: result and all four flags; C is 1 exactly when no borrow occurs (R120,
R123). -/
def subC (sr : StatusRegister) (a b : Word) (cin : Bool) : Word × StatusRegister :=
  let u := sum33 a (~~~b) cin
  let r : Word := u.extractLsb' 0 32
  (r, { setNZ sr r with
        c := u.getLsbD 32
        v := a.getLsbD 31 != b.getLsbD 31 && r.getLsbD 31 != a.getLsbD 31 })

/-- `setAddFlags(a, b)` (R121). -/
def setAddFlags (sr : StatusRegister) (a b : Word) : Word × StatusRegister := addC sr a b false

/-- `setSubFlags(a, b)` (R121). -/
def setSubFlags (sr : StatusRegister) (a b : Word) : Word × StatusRegister := subC sr a b true

/-- `setAddCarryFlags(a, b)`: the carry-in is `SR.C`, read before the flags are written (R121). -/
def setAddCarryFlags (sr : StatusRegister) (a b : Word) : Word × StatusRegister := addC sr a b sr.c

/-- `setSubCarryFlags(a, b)`: the carry-in is `SR.C`, read before the flags are written (R121). -/
def setSubCarryFlags (sr : StatusRegister) (a b : Word) : Word × StatusRegister := subC sr a b sr.c

/-! ### The other flag rules -/

/-- The logical operations: N and Z from the result, carry and overflow untouched (R141, R142, R149, R153, R155, R156). -/
def logicOut (sr : StatusRegister) (r : Word) : Word × StatusRegister := (r, setNZ sr r)

/-- The move: N is written with 0, Z says the immediate is zero, C and V untouched (R135). -/
def moveOut (sr : StatusRegister) (imm8 : BitVec 8) : Word × StatusRegister :=
  (zextImm8 imm8, { sr with n := false, z := imm8 == 0#8 })

/-- NEG: V says the value equals its own negation, N and Z from the result, C is not written (R150). -/
def negOut (sr : StatusRegister) (v : Word) : Word × StatusRegister :=
  (0#32 - v, setNZ { sr with v := (0#32 - v) == v } (0#32 - v))

/-- MUL: the low 32 bits of the product, C written with 0, N and Z from the result, V untouched (R154). -/
def mulOut (sr : StatusRegister) (a b : Word) : Word × StatusRegister :=
  (a * b, setNZ { sr with c := false } (a * b))

end Sys2Proof.Machine
end

