-- ==== Sys2Proof/Machine/AddSub.lean ====
section
/-! DEFINITION. Three-operand add and subtract (spec/42_add_subtract.md): ADD_REG, SUB_REG, ADD_IMM3, SUB_IMM3. -/

namespace Sys2Proof.Machine

/-- ADD_REG, R130: `x[rd] <- x[rs] + x[rn]`. -/
def execAddReg (rn rs rd : RegIdx) (s : State) : Result :=
  .next (s.writeResult rd (setAddFlags s.sr (s.x rs) (s.x rn)))

/-- SUB_REG, R132: `x[rd] <- x[rs] - x[rn]`. -/
def execSubReg (rn rs rd : RegIdx) (s : State) : Result :=
  .next (s.writeResult rd (setSubFlags s.sr (s.x rs) (s.x rn)))

/-- ADD_IMM3, R131: `x[rd] <- x[rs] + imm3`. -/
def execAddImm3 (imm3 : BitVec 3) (rs rd : RegIdx) (s : State) : Result :=
  .next (s.writeResult rd (setAddFlags s.sr (s.x rs) (zextImm3 imm3)))

/-- SUB_IMM3, R133: `x[rd] <- x[rs] - imm3`. -/
def execSubImm3 (imm3 : BitVec 3) (rs rd : RegIdx) (s : State) : Result :=
  .next (s.writeResult rd (setSubFlags s.sr (s.x rs) (zextImm3 imm3)))

end Sys2Proof.Machine
end

