-- ==== Sys2Proof/Machine/Alu.lean ====
section
/-! DEFINITION. The 16 two-register operations (spec/44_alu_operations.md). The first operand is `x[rd]`, the second `x[rs]` (R140). -/

namespace Sys2Proof.Machine

/-- ALU_AND, R141: `x[rd] <- x[rd] & x[rs]`. -/
def execAluAnd (rs rd : RegIdx) (s : State) : Result :=
  .next (s.writeResult rd (logicOut s.sr (s.x rd &&& s.x rs)))

/-- ALU_EOR, R142: `x[rd] <- x[rd] ^ x[rs]`. -/
def execAluEor (rs rd : RegIdx) (s : State) : Result :=
  .next (s.writeResult rd (logicOut s.sr (s.x rd ^^^ s.x rs)))

/-- ALU_LSL, R143: `x[rd]` shifted left by `x[rs][7:0]`. -/
def execAluLsl (rs rd : RegIdx) (s : State) : Result :=
  .next (s.writeResult rd (shiftOut s.sr (shiftLSL (s.x rd) (registerAmount (s.x rs)) s.sr.c)))

/-- ALU_LSR, R144: `x[rd]` shifted right with zero fill by `x[rs][7:0]`. -/
def execAluLsr (rs rd : RegIdx) (s : State) : Result :=
  .next (s.writeResult rd (shiftOut s.sr (shiftLSR (s.x rd) (registerAmount (s.x rs)) s.sr.c)))

/-- ALU_ASR, R145: `x[rd]` shifted right with sign fill by `x[rs][7:0]`. -/
def execAluAsr (rs rd : RegIdx) (s : State) : Result :=
  .next (s.writeResult rd (shiftOut s.sr (shiftASR (s.x rd) (registerAmount (s.x rs)) s.sr.c)))

/-- ALU_ADC, R146: `x[rd] <- x[rd] + x[rs] + C`. -/
def execAluAdc (rs rd : RegIdx) (s : State) : Result :=
  .next (s.writeResult rd (setAddCarryFlags s.sr (s.x rd) (s.x rs)))

/-- ALU_SBC, R147: `x[rd] <- x[rd] - x[rs] - (1 - C)`. -/
def execAluSbc (rs rd : RegIdx) (s : State) : Result :=
  .next (s.writeResult rd (setSubCarryFlags s.sr (s.x rd) (s.x rs)))

/-- ALU_ROR, R148: `x[rd]` rotated right by `x[rs][7:0]` modulo 32. -/
def execAluRor (rs rd : RegIdx) (s : State) : Result :=
  .next (s.writeResult rd (shiftOut s.sr (rotROR (s.x rd) (registerAmount (s.x rs)) s.sr.c)))

/-- ALU_TST, R149: N and Z of `x[rd] & x[rs]`; no register is written. -/
def execAluTst (rs rd : RegIdx) (s : State) : Result :=
  .next (s.writeFlags (logicOut s.sr (s.x rd &&& s.x rs)))

/-- ALU_NEG, R150: `x[rd] <- 0 - x[rs]`. -/
def execAluNeg (rs rd : RegIdx) (s : State) : Result :=
  .next (s.writeResult rd (negOut s.sr (s.x rs)))

/-- ALU_CMP, R151: the flags of `x[rd] - x[rs]`; no register is written. -/
def execAluCmp (rs rd : RegIdx) (s : State) : Result :=
  .next (s.writeFlags (setSubFlags s.sr (s.x rd) (s.x rs)))

/-- ALU_CMN, R152: the flags of `x[rd] + x[rs]`; no register is written. -/
def execAluCmn (rs rd : RegIdx) (s : State) : Result :=
  .next (s.writeFlags (setAddFlags s.sr (s.x rd) (s.x rs)))

/-- ALU_ORR, R153: `x[rd] <- x[rd] | x[rs]`. -/
def execAluOrr (rs rd : RegIdx) (s : State) : Result :=
  .next (s.writeResult rd (logicOut s.sr (s.x rd ||| s.x rs)))

/-- ALU_MUL, R154: `x[rd] <- x[rd] * x[rs]`. -/
def execAluMul (rs rd : RegIdx) (s : State) : Result :=
  .next (s.writeResult rd (mulOut s.sr (s.x rd) (s.x rs)))

/-- ALU_BIC, R155: `x[rd] <- x[rd] & ~x[rs]`. -/
def execAluBic (rs rd : RegIdx) (s : State) : Result :=
  .next (s.writeResult rd (logicOut s.sr (s.x rd &&& ~~~(s.x rs))))

/-- ALU_MVN, R156: `x[rd] <- ~x[rs]`. -/
def execAluMvn (rs rd : RegIdx) (s : State) : Result :=
  .next (s.writeResult rd (logicOut s.sr (~~~(s.x rs))))

end Sys2Proof.Machine
end

