-- ==== Sys2Proof/Machine/Imm8.lean ====
section
/-! DEFINITION. Register and 8-bit immediate (spec/43_immediate8.md): MOV_IMM8, CMP_IMM8, ADD_IMM8, SUB_IMM8. -/

namespace Sys2Proof.Machine

/-- MOV_IMM8, R135: `x[rd] <- imm8`. -/
def execMovImm8 (rd : RegIdx) (imm8 : BitVec 8) (s : State) : Result :=
  .next (s.writeResult rd (moveOut s.sr imm8))

/-- CMP_IMM8, R136: the flags of `x[rd] - imm8`; no register is written. -/
def execCmpImm8 (rd : RegIdx) (imm8 : BitVec 8) (s : State) : Result :=
  .next (s.writeFlags (setSubFlags s.sr (s.x rd) (zextImm8 imm8)))

/-- ADD_IMM8, R137: `x[rd] <- x[rd] + imm8`. -/
def execAddImm8 (rd : RegIdx) (imm8 : BitVec 8) (s : State) : Result :=
  .next (s.writeResult rd (setAddFlags s.sr (s.x rd) (zextImm8 imm8)))

/-- SUB_IMM8, R138: `x[rd] <- x[rd] - imm8`. -/
def execSubImm8 (rd : RegIdx) (imm8 : BitVec 8) (s : State) : Result :=
  .next (s.writeResult rd (setSubFlags s.sr (s.x rd) (zextImm8 imm8)))

end Sys2Proof.Machine
end

