-- ==== Sys2Proof/Machine/Report.lean ====
section
/-! DEFINITION. The targets that report a condition (spec/46_undefined_and_swi.md): UNDEF_16, SWI, UNDEFINED. -/

namespace Sys2Proof.Machine

/-- UNDEF_16, R197: an unhandled word of selector 0x16 reports `EV_UNDEFINED`. -/
def execUndef16 (payload : BitVec 11) (s : State) : Result :=
  .next (s.raise (.evUndefined (encode (.undef16 payload)) s.pc))

/-- SWI, R198: the software interrupt reports `EV_SWI` with its word and address. -/
def execSwi (payload : BitVec 8) (s : State) : Result :=
  .next (s.raise (.evSwi (encode (.swi payload)) s.pc))

/-- UNDEFINED, R196: every word of selector 0x1D reports `EV_UNDEFINED`. -/
def execUndefined (payload : BitVec 11) (s : State) : Result :=
  .next (s.raise (.evUndefined (encode (.undefined payload)) s.pc))

end Sys2Proof.Machine
end

