-- ==== Sys2Proof/Machine/ShiftImm.lean ====
section
/-! DEFINITION. Shift by immediate (spec/41_shift_immediate.md): LSL_IMM, LSR_IMM, ASR_IMM. -/

namespace Sys2Proof.Machine

/-- LSL_IMM, R126: `x[rd] <- x[rs]` shifted left by `imm5`; amount 0 keeps C. -/
def execLslImm (imm5 : BitVec 5) (rs rd : RegIdx) (s : State) : Result :=
  .next (s.writeResult rd (shiftOut s.sr (shiftLSL (s.x rs) (leftShiftAmount imm5) s.sr.c)))

/-- LSR_IMM, R127: logical right shift; `imm5 = 0` is a shift by 32. -/
def execLsrImm (imm5 : BitVec 5) (rs rd : RegIdx) (s : State) : Result :=
  .next (s.writeResult rd (shiftOut s.sr (shiftLSR (s.x rs) (rightShiftAmount imm5) s.sr.c)))

/-- ASR_IMM, R128: arithmetic right shift; `imm5 = 0` is a shift by 32. -/
def execAsrImm (imm5 : BitVec 5) (rs rd : RegIdx) (s : State) : Result :=
  .next (s.writeResult rd (shiftOut s.sr (shiftASR (s.x rs) (rightShiftAmount imm5) s.sr.c)))

end Sys2Proof.Machine
end

