-- ==== Sys2Proof/Machine/Stub.lean ====
section
/-! DEFINITION. The 29 stub targets (spec/45_stub_targets.md): the block's whole specified behaviour at each is the report of R161.
The run then ends: `Event.ended` (Ops) refuses every further step, so a stub is never passed over as a no-op. -/

namespace Sys2Proof.Machine

/-- What every stub target does: report `EV_UNIMPLEMENTED` with the target, the word and the address, and write nothing
else (R161). -/
def State.reportStub (s : State) (i : Instr) : State :=
  s.raise (.evUnimplemented i.target (encode i) s.pc)

/-- HI_REG_OP, R162. -/
def execHiRegOp (payload : BitVec 10) (s : State) : Result :=
  .next (s.reportStub (.hiRegOp payload))

/-- LDR_PC, R163. -/
def execLdrPc (payload : BitVec 11) (s : State) : Result :=
  .next (s.reportStub (.ldrPc payload))

/-- STR_REG, R164. -/
def execStrReg (payload : BitVec 9) (s : State) : Result :=
  .next (s.reportStub (.strReg payload))

/-- STRH_REG, R166. -/
def execStrhReg (payload : BitVec 9) (s : State) : Result :=
  .next (s.reportStub (.strhReg payload))

/-- STRB_REG, R165. -/
def execStrbReg (payload : BitVec 9) (s : State) : Result :=
  .next (s.reportStub (.strbReg payload))

/-- LDSB_REG, R167. -/
def execLdsbReg (payload : BitVec 9) (s : State) : Result :=
  .next (s.reportStub (.ldsbReg payload))

/-- LDR_REG, R168. -/
def execLdrReg (payload : BitVec 9) (s : State) : Result :=
  .next (s.reportStub (.ldrReg payload))

/-- LDRH_REG, R170. -/
def execLdrhReg (payload : BitVec 9) (s : State) : Result :=
  .next (s.reportStub (.ldrhReg payload))

/-- LDRB_REG, R169. -/
def execLdrbReg (payload : BitVec 9) (s : State) : Result :=
  .next (s.reportStub (.ldrbReg payload))

/-- LDSH_REG, R171. -/
def execLdshReg (payload : BitVec 9) (s : State) : Result :=
  .next (s.reportStub (.ldshReg payload))

/-- STR_IMM, R172. -/
def execStrImm (payload : BitVec 11) (s : State) : Result :=
  .next (s.reportStub (.strImm payload))

/-- LDR_IMM, R173. -/
def execLdrImm (payload : BitVec 11) (s : State) : Result :=
  .next (s.reportStub (.ldrImm payload))

/-- STRB_IMM, R174. -/
def execStrbImm (payload : BitVec 11) (s : State) : Result :=
  .next (s.reportStub (.strbImm payload))

/-- LDRB_IMM, R175. -/
def execLdrbImm (payload : BitVec 11) (s : State) : Result :=
  .next (s.reportStub (.ldrbImm payload))

/-- STRH_IMM, R176. -/
def execStrhImm (payload : BitVec 11) (s : State) : Result :=
  .next (s.reportStub (.strhImm payload))

/-- LDRH_IMM, R177. -/
def execLdrhImm (payload : BitVec 11) (s : State) : Result :=
  .next (s.reportStub (.ldrhImm payload))

/-- STR_SP, R178. -/
def execStrSp (payload : BitVec 11) (s : State) : Result :=
  .next (s.reportStub (.strSp payload))

/-- LDR_SP, R179. -/
def execLdrSp (payload : BitVec 11) (s : State) : Result :=
  .next (s.reportStub (.ldrSp payload))

/-- LOAD_ADDRESS_14, R180. -/
def execLoadAddress14 (payload : BitVec 11) (s : State) : Result :=
  .next (s.reportStub (.loadAddress14 payload))

/-- LOAD_ADDRESS_15, R181. -/
def execLoadAddress15 (payload : BitVec 11) (s : State) : Result :=
  .next (s.reportStub (.loadAddress15 payload))

/-- ADD_SP_OFFSET, R182. -/
def execAddSpOffset (payload : BitVec 8) (s : State) : Result :=
  .next (s.reportStub (.addSpOffset payload))

/-- PUSH, R183. -/
def execPush (payload : BitVec 9) (s : State) : Result :=
  .next (s.reportStub (.push payload))

/-- POP, R184. -/
def execPop (payload : BitVec 11) (s : State) : Result :=
  .next (s.reportStub (.pop payload))

/-- STMIA, R185. -/
def execStmia (payload : BitVec 11) (s : State) : Result :=
  .next (s.reportStub (.stmia payload))

/-- LDMIA, R186. -/
def execLdmia (payload : BitVec 11) (s : State) : Result :=
  .next (s.reportStub (.ldmia payload))

/-- B_COND, R187. -/
def execBCond (payload : BitVec 12) (s : State) : Result :=
  .next (s.reportStub (.bCond payload))

/-- B, R188. -/
def execB (payload : BitVec 11) (s : State) : Result :=
  .next (s.reportStub (.b payload))

/-- BL_LOW, R189. -/
def execBlLow (payload : BitVec 11) (s : State) : Result :=
  .next (s.reportStub (.blLow payload))

/-- BL_HIGH, R190. -/
def execBlHigh (payload : BitVec 11) (s : State) : Result :=
  .next (s.reportStub (.blHigh payload))

end Sys2Proof.Machine
end

