-- ==== Sys2Proof/Machine/Dispatch.lean ====
section
/-! DEFINITION. `Execute` (R9): one arm per instruction, each one call of its meaning. -/

namespace Sys2Proof.Machine

def exec (i : Instr) (s : State) : Host.Outcome State Fault Refusal :=
  match i with
  | .lslImm imm5 rs rd => Sys2Proof.Machine.execLslImm imm5 rs rd s
  | .lsrImm imm5 rs rd => Sys2Proof.Machine.execLsrImm imm5 rs rd s
  | .asrImm imm5 rs rd => Sys2Proof.Machine.execAsrImm imm5 rs rd s
  | .addReg rn rs rd => Sys2Proof.Machine.execAddReg rn rs rd s
  | .subReg rn rs rd => Sys2Proof.Machine.execSubReg rn rs rd s
  | .addImm3 imm3 rs rd => Sys2Proof.Machine.execAddImm3 imm3 rs rd s
  | .subImm3 imm3 rs rd => Sys2Proof.Machine.execSubImm3 imm3 rs rd s
  | .movImm8 rd imm8 => Sys2Proof.Machine.execMovImm8 rd imm8 s
  | .cmpImm8 rd imm8 => Sys2Proof.Machine.execCmpImm8 rd imm8 s
  | .addImm8 rd imm8 => Sys2Proof.Machine.execAddImm8 rd imm8 s
  | .subImm8 rd imm8 => Sys2Proof.Machine.execSubImm8 rd imm8 s
  | .aluAnd rs rd => Sys2Proof.Machine.execAluAnd rs rd s
  | .aluEor rs rd => Sys2Proof.Machine.execAluEor rs rd s
  | .aluLsl rs rd => Sys2Proof.Machine.execAluLsl rs rd s
  | .aluLsr rs rd => Sys2Proof.Machine.execAluLsr rs rd s
  | .aluAsr rs rd => Sys2Proof.Machine.execAluAsr rs rd s
  | .aluAdc rs rd => Sys2Proof.Machine.execAluAdc rs rd s
  | .aluSbc rs rd => Sys2Proof.Machine.execAluSbc rs rd s
  | .aluRor rs rd => Sys2Proof.Machine.execAluRor rs rd s
  | .aluTst rs rd => Sys2Proof.Machine.execAluTst rs rd s
  | .aluNeg rs rd => Sys2Proof.Machine.execAluNeg rs rd s
  | .aluCmp rs rd => Sys2Proof.Machine.execAluCmp rs rd s
  | .aluCmn rs rd => Sys2Proof.Machine.execAluCmn rs rd s
  | .aluOrr rs rd => Sys2Proof.Machine.execAluOrr rs rd s
  | .aluMul rs rd => Sys2Proof.Machine.execAluMul rs rd s
  | .aluBic rs rd => Sys2Proof.Machine.execAluBic rs rd s
  | .aluMvn rs rd => Sys2Proof.Machine.execAluMvn rs rd s
  | .hiRegOp payload => Sys2Proof.Machine.execHiRegOp payload s
  | .ldrPc payload => Sys2Proof.Machine.execLdrPc payload s
  | .strReg payload => Sys2Proof.Machine.execStrReg payload s
  | .strhReg payload => Sys2Proof.Machine.execStrhReg payload s
  | .strbReg payload => Sys2Proof.Machine.execStrbReg payload s
  | .ldsbReg payload => Sys2Proof.Machine.execLdsbReg payload s
  | .ldrReg payload => Sys2Proof.Machine.execLdrReg payload s
  | .ldrhReg payload => Sys2Proof.Machine.execLdrhReg payload s
  | .ldrbReg payload => Sys2Proof.Machine.execLdrbReg payload s
  | .ldshReg payload => Sys2Proof.Machine.execLdshReg payload s
  | .strImm payload => Sys2Proof.Machine.execStrImm payload s
  | .ldrImm payload => Sys2Proof.Machine.execLdrImm payload s
  | .strbImm payload => Sys2Proof.Machine.execStrbImm payload s
  | .ldrbImm payload => Sys2Proof.Machine.execLdrbImm payload s
  | .strhImm payload => Sys2Proof.Machine.execStrhImm payload s
  | .ldrhImm payload => Sys2Proof.Machine.execLdrhImm payload s
  | .strSp payload => Sys2Proof.Machine.execStrSp payload s
  | .ldrSp payload => Sys2Proof.Machine.execLdrSp payload s
  | .loadAddress14 payload => Sys2Proof.Machine.execLoadAddress14 payload s
  | .loadAddress15 payload => Sys2Proof.Machine.execLoadAddress15 payload s
  | .addSpOffset payload => Sys2Proof.Machine.execAddSpOffset payload s
  | .undef16 payload => Sys2Proof.Machine.execUndef16 payload s
  | .push payload => Sys2Proof.Machine.execPush payload s
  | .pop payload => Sys2Proof.Machine.execPop payload s
  | .stmia payload => Sys2Proof.Machine.execStmia payload s
  | .ldmia payload => Sys2Proof.Machine.execLdmia payload s
  | .bCond payload => Sys2Proof.Machine.execBCond payload s
  | .swi payload => Sys2Proof.Machine.execSwi payload s
  | .b payload => Sys2Proof.Machine.execB payload s
  | .undefined payload => Sys2Proof.Machine.execUndefined payload s
  | .blLow payload => Sys2Proof.Machine.execBlLow payload s
  | .blHigh payload => Sys2Proof.Machine.execBlHigh payload s

end Sys2Proof.Machine
end

