-- ==== Sys2Proof/Machine/Step.lean ====
section
/-! DEFINITION. The step: the block's `Step(pc)` (R9) inside the reference driver (R20). -/

namespace Sys2Proof.Machine

/-- `Step(pc)` of the block, at any address a driver presents: fetch, decode, execute (R9), for `SR.W = 0` only (R110). -/
def blockStep (pc : Word) (s : State) : Host.Outcome State Fault Refusal :=
  match s.wideRefusal with
  | some r => r
  | none => exec (decodeWord (s.fetch pc)) (s.present pc)

/-- One step of a run under the reference driver: no step after an event that ended the run, else the block's step at
`pc` and then the driver's advance (R20, R230). -/
def step (s : State) : Host.Outcome State Fault Refusal :=
  match s.event.ended with
  | some r => r
  | none => advanceResult (blockStep s.pc s)

/-- The state whose very next step fetches and runs the given instruction word: the word stands at `pc`, the 16-bit
subset is active and the driver is running (log 20). -/
def State.withFetchWord (s : State) (nbits w : Nat) : State :=
  { (s.placeWord s.pc (tableWord nbits w)) with sr := { s.sr with w := false }, event := .evNone }

end Sys2Proof.Machine
end

