-- ==== Sys2Proof/Machine/Driver.lean ====
section
/-! DEFINITION. The host interface as data: what the CPU core may do to the block between steps (R7, R33, R54, R212), in any
order it likes. `Machine.step` is the one reference driver of R20; `drive` leaves the driver a parameter, as
spec/92_eei_decisions.md D3 asks of a model. -/

namespace Sys2Proof.Machine

/-- One call of the CPU core on the block or on what it lends to the block. -/
inductive CoreCall where
  /-- the driver calls `Step(pc)` (R9, R17) -/
  | step (pc : Word)
  /-- `load(word)` on the status register, between steps (R29, R33) -/
  | load (word : Word)
  /-- the owner of the register file changes a low register; the setter masks the index (R14) -/
  | setLowReg (packed : Byte) (value : Word)
  /-- a party outside the block changes a byte of memory (R54) -/
  | pokeByte (address : Word) (value : Byte)
  deriving DecidableEq, Repr

/-- The effect of one call. -/
def callCore : CoreCall → State → Result
  | .step pc, s => blockStep pc s
  | .load word, s => .next (s.load word)
  | .setLowReg packed value, s => .next (s.setLowReg packed value)
  | .pokeByte address value, s => .next (s.pokeByte address value)

/-- A sequence of calls, stopping at the first the model gives no next state for. -/
def drive : List CoreCall → State → Result
  | [], s => .next s
  | call :: calls, s =>
    match callCore call s with
    | .next t => drive calls t
    | .fault r => .fault r
    | .refused r => .refused r

end Sys2Proof.Machine
end

