-- ==== Sys2Proof/Safety.lean ====
section
/-! DEFINITION. The terms claims are stated in: what a run keeps, when an event is honest, and the tables of R15 and R23 that
say what each instruction reads and writes. -/

namespace Sys2Proof.Machine

/-- The run goes on: no event has ended it and the 16-bit subset is active, so a step is defined (R110, R230). -/
def Running (s : State) : Prop := s.event = .evNone ∧ s.sr.w = false

/-- Every byte of memory reads in `t` as it reads in `s`. -/
def SameMemory (s t : State) : Prop := ∀ a : Word, t.readByte a = s.readByte a

/-- Every low register reads in `t` as it reads in `s`. -/
def SameRegs (s t : State) : Prop := ∀ j : RegIdx, t.x j = s.x j

/-- Every low register but `rd` reads in `t` as it reads in `s`. -/
def SameRegsBut (rd : RegIdx) (s t : State) : Prop := ∀ j : RegIdx, j ≠ rd → t.x j = s.x j

/-- The fields of `SR` that no instruction writes are the same: I, F, W and the mode (R34). -/
def SameControl (s t : State) : Prop :=
  t.sr.i = s.sr.i ∧ t.sr.f = s.sr.f ∧ t.sr.w = s.sr.w ∧ t.sr.m = s.sr.m

/-- What every implemented instruction leaves alone besides registers and condition flags: the control fields, every byte
of memory; and it reports `EV_NONE` and leaves `pc` to the driver (R18, R34, R42, R201). -/
def Retired (s t : State) : Prop :=
  SameControl s t ∧ SameMemory s t ∧ t.pc = s.pc ∧ t.event = .evNone

/-- The step reported `e` and wrote nothing (R210). -/
def ReportedOnly (e : Event) (s t : State) : Prop :=
  t.event = e ∧ SameRegs s t ∧ t.sr = s.sr ∧ SameMemory s t ∧ t.pc = s.pc

/-- N and Z of `t` are those of the result `r`: bit 31, and whether it is zero (R113). -/
def NZOf (r : Word) (t : State) : Prop := t.sr.n = r.getLsbD 31 ∧ t.sr.z = decide (r = 0#32)

/-! ### Results, in the integers the spec reads its vectors as -/

/-- `a + b + cin` modulo 2^32 (R119). -/
def sumWord (a b : Word) (cin : Bool) : Word := BitVec.ofNat 32 (a.toNat + b.toNat + cin.toNat)

/-- `a - b - (1 - cin)` modulo 2^32 (R120). -/
def differenceWord (a b : Word) (cin : Bool) : Word := BitVec.ofInt 32 (a.toNat - b.toNat - (1 - cin.toNat))

/-- The four flags of an addition: C is the carry out of bit 31 of the unsigned sum, V by the signs of the operands and of
the result (R119, R123). -/
def AddFlags (a b : Word) (cin : Bool) (t : State) : Prop :=
  NZOf (sumWord a b cin) t ∧
  t.sr.c = decide (2 ^ 32 ≤ a.toNat + b.toNat + cin.toNat) ∧
  t.sr.v = (decide (a.toInt < 0) == decide (b.toInt < 0) &&
    decide ((sumWord a b cin).toInt < 0) != decide (a.toInt < 0))

/-- The four flags of a subtraction: C is 1 exactly when no borrow occurs over `a - b - (1 - cin)`, V by the signs of the
operands and of the result (R120, R123). -/
def SubFlags (a b : Word) (cin : Bool) (t : State) : Prop :=
  NZOf (differenceWord a b cin) t ∧
  t.sr.c = decide (b.toNat + (1 - cin.toNat) ≤ a.toNat) ∧
  t.sr.v = (decide (a.toInt < 0) != decide (b.toInt < 0) &&
    decide ((differenceWord a b cin).toInt < 0) != decide (a.toInt < 0))

/-- The table of R114: value, amount, carry in; result, carry out. -/
def LslTable (v : Word) (n : Nat) (c : Bool) (r : Word) (co : Bool) : Prop :=
  (n = 0 → r = v ∧ co = c) ∧
  (1 ≤ n → n ≤ 31 → r.toNat = v.toNat * 2 ^ n % 2 ^ 32 ∧ co = v.getLsbD (32 - n)) ∧
  (n = 32 → r = 0#32 ∧ co = v.getLsbD 0) ∧
  (32 < n → r = 0#32 ∧ co = false)

/-- The table of R115. -/
def LsrTable (v : Word) (n : Nat) (c : Bool) (r : Word) (co : Bool) : Prop :=
  (n = 0 → r = v ∧ co = c) ∧
  (1 ≤ n → n ≤ 31 → r.toNat = v.toNat / 2 ^ n ∧ co = v.getLsbD (n - 1)) ∧
  (n = 32 → r = 0#32 ∧ co = v.getLsbD 31) ∧
  (32 < n → r = 0#32 ∧ co = false)

/-- The table of R116; the division of a negative value by a power of two rounds down, which is the sign fill. -/
def AsrTable (v : Word) (n : Nat) (c : Bool) (r : Word) (co : Bool) : Prop :=
  (n = 0 → r = v ∧ co = c) ∧
  (1 ≤ n → n ≤ 31 → r.toInt = v.toInt / 2 ^ n ∧ co = v.getLsbD (n - 1)) ∧
  (32 ≤ n → r.toInt = (if v.getLsbD 31 then -1 else 0) ∧ co = v.getLsbD 31)

/-- The table of R117: bit `k` of the result is bit `(k + n) mod 32` of the value; a reduced amount of 0 still writes the
carry, and the incoming carry plays no part. -/
def RorTable (v : Word) (n : Nat) (r : Word) (co : Bool) : Prop :=
  (∀ k, k < 32 → r.getLsbD k = v.getLsbD ((k + n) % 32)) ∧
  (n % 32 = 0 → co = v.getLsbD 31) ∧
  (n % 32 ≠ 0 → co = v.getLsbD (n % 32 - 1))

/-- The amount a register holds for a shift or rotate: its low 8 bits as a number (R118). -/
def lowEight (v : Word) : Nat := v.toNat % 256

/-- The event on the port is the report of the instruction at `pc`: it carries that address and the word fetched there, and
the word decodes to a target that raises this event (R201, R211). -/
def EventHonest (s : State) : Prop :=
  match s.event with
  | .evNone => True
  | .evUndefined word pc => pc = s.pc ∧ word = s.fetch s.pc ∧ (decodeWord word).target.isUndefined = true
  | .evSwi word pc => pc = s.pc ∧ word = s.fetch s.pc ∧ (decodeWord word).target = .swi
  | .evUnimplemented target word pc =>
    pc = s.pc ∧ word = s.fetch s.pc ∧ (decodeWord word).target = target ∧ target.isStub = true

/-- The invariant of a run: the memory keeps its canonical form, the mode code stays one of the seven defined ones (R27),
the 16-bit subset stays active (R224), and the event on the port is honest. -/
structure Inv (s : State) : Prop where
  memory : s.mem.wf = true
  mode : s.sr.modeDefined = true
  narrow : s.sr.w = false
  event : EventHonest s

/-- The register an instruction writes, if any (R15, right column). -/
def regWritten : Instr → Option RegIdx
  | .lslImm _ _ rd => some rd
  | .lsrImm _ _ rd => some rd
  | .asrImm _ _ rd => some rd
  | .addReg _ _ rd => some rd
  | .subReg _ _ rd => some rd
  | .addImm3 _ _ rd => some rd
  | .subImm3 _ _ rd => some rd
  | .movImm8 rd _ => some rd
  | .addImm8 rd _ => some rd
  | .subImm8 rd _ => some rd
  | .aluAnd _ rd => some rd
  | .aluEor _ rd => some rd
  | .aluLsl _ rd => some rd
  | .aluLsr _ rd => some rd
  | .aluAsr _ rd => some rd
  | .aluAdc _ rd => some rd
  | .aluSbc _ rd => some rd
  | .aluRor _ rd => some rd
  | .aluNeg _ rd => some rd
  | .aluOrr _ rd => some rd
  | .aluMul _ rd => some rd
  | .aluBic _ rd => some rd
  | .aluMvn _ rd => some rd
  | _ => none

/-- The registers an instruction reads (R15, middle column). -/
def regsRead : Instr → List RegIdx
  | .lslImm _ rs _ => [rs]
  | .lsrImm _ rs _ => [rs]
  | .asrImm _ rs _ => [rs]
  | .addReg rn rs _ => [rs, rn]
  | .subReg rn rs _ => [rs, rn]
  | .addImm3 _ rs _ => [rs]
  | .subImm3 _ rs _ => [rs]
  | .cmpImm8 rd _ => [rd]
  | .addImm8 rd _ => [rd]
  | .subImm8 rd _ => [rd]
  | .aluAnd rs rd => [rd, rs]
  | .aluEor rs rd => [rd, rs]
  | .aluLsl rs rd => [rd, rs]
  | .aluLsr rs rd => [rd, rs]
  | .aluAsr rs rd => [rd, rs]
  | .aluAdc rs rd => [rd, rs]
  | .aluSbc rs rd => [rd, rs]
  | .aluRor rs rd => [rd, rs]
  | .aluTst rs rd => [rd, rs]
  | .aluNeg rs _ => [rs]
  | .aluCmp rs rd => [rd, rs]
  | .aluCmn rs rd => [rd, rs]
  | .aluOrr rs rd => [rd, rs]
  | .aluMul rs rd => [rd, rs]
  | .aluBic rs rd => [rd, rs]
  | .aluMvn rs _ => [rs]
  | _ => []

/-- The instruction writes N and Z: exactly the 27 implemented ones (R23, columns N and Z). -/
def writesNZ (i : Instr) : Bool := i.target.isImplemented

/-- The instruction, in this state, writes C (R23, column C): never the moves, logical operations and NEG; a left shift by
immediate not at amount 0; a register shift not at amount 0. -/
def writesC (s : State) : Instr → Bool
  | .lslImm imm5 _ _ => imm5 != 0#5
  | .lsrImm _ _ _ => true
  | .asrImm _ _ _ => true
  | .addReg _ _ _ => true
  | .subReg _ _ _ => true
  | .addImm3 _ _ _ => true
  | .subImm3 _ _ _ => true
  | .cmpImm8 _ _ => true
  | .addImm8 _ _ => true
  | .subImm8 _ _ => true
  | .aluLsl rs _ => (s.x rs).extractLsb' 0 8 != 0#8
  | .aluLsr rs _ => (s.x rs).extractLsb' 0 8 != 0#8
  | .aluAsr rs _ => (s.x rs).extractLsb' 0 8 != 0#8
  | .aluAdc _ _ => true
  | .aluSbc _ _ => true
  | .aluRor _ _ => true
  | .aluCmp _ _ => true
  | .aluCmn _ _ => true
  | .aluMul _ _ => true
  | _ => false

/-- The instruction writes V (R23, column V): the adds, subtracts and compares, and NEG. -/
def writesV : Instr → Bool
  | .addReg _ _ _ => true
  | .subReg _ _ _ => true
  | .addImm3 _ _ _ => true
  | .subImm3 _ _ _ => true
  | .cmpImm8 _ _ => true
  | .addImm8 _ _ => true
  | .subImm8 _ _ => true
  | .aluAdc _ _ => true
  | .aluSbc _ _ => true
  | .aluNeg _ _ => true
  | .aluCmp _ _ => true
  | .aluCmn _ _ => true
  | _ => false

/-- The state with other interrupt masks and another mode code. -/
def State.withMode (s : State) (i f : Bool) (m : BitVec 5) : State := { s with sr := { s.sr with i := i, f := f, m := m } }

/-- The same change on an outcome. -/
def modeOnResult (i f : Bool) (m : BitVec 5) : Result → Result
  | .next t => .next (t.withMode i f m)
  | .fault r => .fault r
  | .refused r => .refused r

end Sys2Proof.Machine
end

