-- ==== Sys2Proof/Certificates/Slice0/Obligations.lean ====
section
/-! DEFINITION. The statements about the model, from the numbered rules of spec/. A clause the spec marks as its own decision
(D1 to D32 of spec/92_eei_decisions.md) or as derived is said to be one in the statement's docstring. -/

open Sys2Proof Sys2Proof.Machine

/-! ### The status register and reset -/

/-- R29: `load(word)` overwrites every field of `SR` from its bit, and nothing else. -/
def Obligations.LoadWritesEveryField : Prop :=
  ∀ (s : State) (word : Word), ∃ t, callCore (.load word) s = .next t ∧
    t.sr.n = word.getLsbD 31 ∧ t.sr.z = word.getLsbD 30 ∧ t.sr.c = word.getLsbD 29 ∧ t.sr.v = word.getLsbD 28 ∧
    t.sr.i = word.getLsbD 7 ∧ t.sr.f = word.getLsbD 6 ∧ t.sr.w = word.getLsbD 5 ∧ t.sr.m.toNat = word.toNat % 32 ∧
    SameRegs s t ∧ SameMemory s t ∧ t.pc = s.pc ∧ t.event = s.event

/-- R28: any of the 32 mode codes is stored without a check, nothing is raised, and `save` returns the same five bits. That no
step depends on the code is Obligations.ModeAndMasksNeverMatter. -/
def Obligations.AnyModeCodeIsStoredAndReturned : Prop :=
  ∀ (s : State) (word : Word), ∃ t, callCore (.load word) s = .next t ∧
    t.sr.m.toNat = word.toNat % 32 ∧ t.event = s.event ∧ t.save.toNat % 32 = word.toNat % 32

/-- R32: the reserved bits 27:8 are not state; `load` ignores them and `save` returns them as zero. -/
def Obligations.ReservedBitsAreNotState : Prop :=
  (∀ (s : State) (word word' : Word),
    (∀ k, k < 8 ∨ 28 ≤ k → word.getLsbD k = word'.getLsbD k) → s.load word = s.load word') ∧
  (∀ (s : State) (k : Nat), 8 ≤ k → k ≤ 27 → s.save.getLsbD k = false)

/-- R30: every bit of the word `save` returns. -/
def Obligations.SaveLaysOutEveryField : Prop :=
  ∀ (s : State) (k : Nat), k < 32 → s.save.getLsbD k =
    (if k = 31 then s.sr.n else if k = 30 then s.sr.z else if k = 29 then s.sr.c else if k = 28 then s.sr.v
     else if 8 ≤ k then false
     else if k = 7 then s.sr.i else if k = 6 then s.sr.f else if k = 5 then s.sr.w else s.sr.m.getLsbD k)

/-- R31: the round trips of `load` and `save`. The spec derives the second and third from R29 and R30. -/
def Obligations.StatusWordRoundTrip : Prop :=
  (∀ (s : State) (word : Word), word &&& 0x0FFFFF00#32 = 0#32 → (s.load word).save = word) ∧
  (∀ (s : State) (word : Word), (s.load word).save = word &&& 0xF00000FF#32) ∧
  (∀ s : State, s.load s.save = s)

/-- R38: after construction `SR.M` holds the code of the lowest-privilege mode; that the code is 0x10 is the spec's own
decision D24 (log 4). -/
def Obligations.ResetHoldsTheLowestPrivilegeMode : Prop :=
  State.reset.sr.m.toNat = 16 ∧ State.reset.sr.modeDefined = true

/-- The invariant of a run holds at reset (the model's choices: the event port, log 2; the launch values, logs 3 to 6; the
canonical form of memory, log 7). -/
def Obligations.ResetMeetsTheRunInvariant : Prop := Inv State.reset

/-! ### Registers and memory -/

/-- The setter masks the index to 3 bits itself, and a read returns the value last written (R14; the spec derives the
latter). -/
def Obligations.RegisterSetterMasksTheIndex : Prop :=
  ∀ (s : State) (packed : Byte) (value : Word), ∃ t, callCore (.setLowReg packed value) s = .next t ∧
    (∀ j : RegIdx, t.x j = if j.toNat = packed.toNat % 8 then value else s.x j) ∧
    t.sr = s.sr ∧ SameMemory s t ∧ t.pc = s.pc ∧ t.event = s.event

/-- A byte changed by a party outside the block is what later reads of that address return, every other byte reads as
before, and the memory keeps its canonical form (derived from R54; the form is the model's, log 7). -/
def Obligations.ChangedByteReadsBackAndNoOther : Prop :=
  ∀ (s : State) (a : Word) (b : Byte), s.mem.wf = true → ∃ t, callCore (.pokeByte a b) s = .next t ∧
    t.readByte a = b ∧ (∀ a' : Word, a' ≠ a → t.readByte a' = s.readByte a') ∧ t.mem.wf = true ∧
    SameRegs s t ∧ t.sr = s.sr ∧ t.pc = s.pc ∧ t.event = s.event

/-- No sequence of calls of the CPU core breaks the memory's canonical form (the model's form, log 7). -/
def Obligations.EveryCallKeepsTheMemoryCanonical : Prop :=
  ∀ (calls : List CoreCall) (s t : State), s.mem.wf = true → drive calls s = .next t → t.mem.wf = true

/-- R43: instruction fetch is little-endian: the byte at `pc` is the low byte and the byte at `(pc + 1) mod 2^32` the high
byte, for every `pc`. -/
def Obligations.FetchIsLittleEndian : Prop :=
  ∀ (s : State) (pc hi : Word), hi.toNat = (pc.toNat + 1) % 2 ^ 32 →
    (s.fetch pc).toNat = (s.readByte pc).toNat + 256 * (s.readByte hi).toNat

/-! ### Encoding and decode -/

/-- Decoding the encoding of any well-formed instruction gives it back, with every operand at every value. -/
def Obligations.DecodeUndoesEncode : Prop :=
  ∀ i : Instr, i.wf = true → decode (encodeBytes i) = .ok (i, []) ∧ decodeWord (encode i) = i

/-- Every word decodes to a well-formed instruction whose encoding is that word: no bit is dropped (derived from R107 and
R160). -/
def Obligations.EncodeUndoesDecode : Prop :=
  ∀ w : Half, (decodeWord w).wf = true ∧ encode (decodeWord w) = w

/-- R59: every instruction is one 16-bit word: the decoder always takes exactly two bytes, whatever they are, and leaves the
rest of the stream as it is. -/
def Obligations.EveryInstructionIsOneWord : Prop :=
  ∀ (lo hi : Byte) (rest : List Byte), ∃ i : Instr,
    decode (lo :: hi :: rest) = .ok (i, rest) ∧ (encode i).toNat = lo.toNat + 256 * hi.toNat

/-- Decode is total and single-valued: each word matches exactly one of the 64 rows of the opcode table, and that row names
the target the word decodes to (R107, which the spec derives). -/
def Obligations.OpcodeTablePartitionsTheWords : Prop :=
  opcodeTable.length = 64 ∧
  ∀ w : Half, ∃ r ∈ opcodeTable, r.holds w = true ∧ r.target = (decodeWord w).target ∧
    ∀ r' ∈ opcodeTable, r'.holds w = true → r' = r

/-- The selectors 0x00 to 0x02, 0x04 to 0x07 and 0x09 (R75 to R77, R79 to R82, R85); the positions of the operand fields are the
spec's own decisions D7 and D9 (log 16). -/
def Obligations.ShiftAndImmediateSelectorsRoute : Prop :=
  ∀ w : Half,
    (w.toNat / 2048 = 0x00 → decodeWord w =
      .lslImm (BitVec.ofNat 5 (w.toNat / 64)) (BitVec.ofNat 3 (w.toNat / 8)) (BitVec.ofNat 3 w.toNat)) ∧
    (w.toNat / 2048 = 0x01 → decodeWord w =
      .lsrImm (BitVec.ofNat 5 (w.toNat / 64)) (BitVec.ofNat 3 (w.toNat / 8)) (BitVec.ofNat 3 w.toNat)) ∧
    (w.toNat / 2048 = 0x02 → decodeWord w =
      .asrImm (BitVec.ofNat 5 (w.toNat / 64)) (BitVec.ofNat 3 (w.toNat / 8)) (BitVec.ofNat 3 w.toNat)) ∧
    (w.toNat / 2048 = 0x04 → decodeWord w = .movImm8 (BitVec.ofNat 3 (w.toNat / 256)) (BitVec.ofNat 8 w.toNat)) ∧
    (w.toNat / 2048 = 0x05 → decodeWord w = .cmpImm8 (BitVec.ofNat 3 (w.toNat / 256)) (BitVec.ofNat 8 w.toNat)) ∧
    (w.toNat / 2048 = 0x06 → decodeWord w = .addImm8 (BitVec.ofNat 3 (w.toNat / 256)) (BitVec.ofNat 8 w.toNat)) ∧
    (w.toNat / 2048 = 0x07 → decodeWord w = .subImm8 (BitVec.ofNat 3 (w.toNat / 256)) (BitVec.ofNat 8 w.toNat)) ∧
    (w.toNat / 2048 = 0x09 → decodeWord w = .ldrPc (BitVec.ofNat 11 w.toNat))

/-- R88 to R95, R99, R100, R105, R106: the stub targets that own a whole selector and whose routing the source states. -/
def Obligations.WholeSelectorStubsRoute : Prop :=
  ∀ w : Half,
    (w.toNat / 2048 = 0x0C → decodeWord w = .strImm (BitVec.ofNat 11 w.toNat)) ∧
    (w.toNat / 2048 = 0x0D → decodeWord w = .ldrImm (BitVec.ofNat 11 w.toNat)) ∧
    (w.toNat / 2048 = 0x0E → decodeWord w = .strbImm (BitVec.ofNat 11 w.toNat)) ∧
    (w.toNat / 2048 = 0x0F → decodeWord w = .ldrbImm (BitVec.ofNat 11 w.toNat)) ∧
    (w.toNat / 2048 = 0x10 → decodeWord w = .strhImm (BitVec.ofNat 11 w.toNat)) ∧
    (w.toNat / 2048 = 0x11 → decodeWord w = .ldrhImm (BitVec.ofNat 11 w.toNat)) ∧
    (w.toNat / 2048 = 0x12 → decodeWord w = .strSp (BitVec.ofNat 11 w.toNat)) ∧
    (w.toNat / 2048 = 0x13 → decodeWord w = .ldrSp (BitVec.ofNat 11 w.toNat)) ∧
    (w.toNat / 2048 = 0x18 → decodeWord w = .stmia (BitVec.ofNat 11 w.toNat)) ∧
    (w.toNat / 2048 = 0x19 → decodeWord w = .ldmia (BitVec.ofNat 11 w.toNat)) ∧
    (w.toNat / 2048 = 0x1E → decodeWord w = .blLow (BitVec.ofNat 11 w.toNat)) ∧
    (w.toNat / 2048 = 0x1F → decodeWord w = .blHigh (BitVec.ofNat 11 w.toNat))

/-- R103, R104: every word of selector 0x1C is the unconditional branch and never reports `EV_UNDEFINED`; every word of selector
0x1D is the undefined instruction and reports it. -/
def Obligations.BranchNeverFallsIntoUndefined : Prop :=
  ∀ (w : Half) (s : State),
    (w.toNat / 2048 = 0x1C → decodeWord w = .b (BitVec.ofNat 11 w.toNat) ∧
      ∃ t, exec (decodeWord w) s = .next t ∧ t.event.code ≠ 1) ∧
    (w.toNat / 2048 = 0x1D → decodeWord w = .undefined (BitVec.ofNat 11 w.toNat) ∧
      ∃ t, exec (decodeWord w) s = .next t ∧ t.event = .evUndefined w s.pc)

/-- The selectors whose secondary routing is the spec's own decision: the add/subtract group (D8), the register-offset
groups (D16), selector 0x16 (D17, log 9), and 0x14, 0x15, 0x17, 0x1A, 0x1B (D18, D28). -/
def Obligations.DecidedRoutingsFollowTheSpec : Prop :=
  (∀ (f rs rd : RegIdx),
    decodeWord (0b00011#5 ++ 0#1 ++ 0#1 ++ f ++ rs ++ rd) = .addReg f rs rd ∧
    decodeWord (0b00011#5 ++ 1#1 ++ 0#1 ++ f ++ rs ++ rd) = .addImm3 f rs rd ∧
    decodeWord (0b00011#5 ++ 0#1 ++ 1#1 ++ f ++ rs ++ rd) = .subReg f rs rd ∧
    decodeWord (0b00011#5 ++ 1#1 ++ 1#1 ++ f ++ rs ++ rd) = .subImm3 f rs rd) ∧
  (∀ p : BitVec 9,
    decodeWord (0b01010#5 ++ 0#1 ++ 0#1 ++ p) = .strReg p ∧ decodeWord (0b01010#5 ++ 1#1 ++ 0#1 ++ p) = .strbReg p ∧
    decodeWord (0b01010#5 ++ 0#1 ++ 1#1 ++ p) = .strhReg p ∧ decodeWord (0b01010#5 ++ 1#1 ++ 1#1 ++ p) = .ldsbReg p ∧
    decodeWord (0b01011#5 ++ 0#1 ++ 0#1 ++ p) = .ldrReg p ∧ decodeWord (0b01011#5 ++ 1#1 ++ 0#1 ++ p) = .ldrbReg p ∧
    decodeWord (0b01011#5 ++ 0#1 ++ 1#1 ++ p) = .ldrhReg p ∧ decodeWord (0b01011#5 ++ 1#1 ++ 1#1 ++ p) = .ldshReg p) ∧
  (∀ w : Half,
    (0xB000 ≤ w.toNat → w.toNat ≤ 0xB0FF → decodeWord w = .addSpOffset (BitVec.ofNat 8 w.toNat)) ∧
    (0xB100 ≤ w.toNat → w.toNat ≤ 0xB3FF → decodeWord w = .undef16 (BitVec.ofNat 11 w.toNat)) ∧
    (0xB400 ≤ w.toNat → w.toNat ≤ 0xB5FF → decodeWord w = .push (BitVec.ofNat 9 w.toNat)) ∧
    (0xB600 ≤ w.toNat → w.toNat ≤ 0xB7FF → decodeWord w = .undef16 (BitVec.ofNat 11 w.toNat)) ∧
    (0xA000 ≤ w.toNat → w.toNat ≤ 0xA7FF → decodeWord w = .loadAddress14 (BitVec.ofNat 11 w.toNat)) ∧
    (0xA800 ≤ w.toNat → w.toNat ≤ 0xAFFF → decodeWord w = .loadAddress15 (BitVec.ofNat 11 w.toNat)) ∧
    (0xB800 ≤ w.toNat → w.toNat ≤ 0xBFFF → decodeWord w = .pop (BitVec.ofNat 11 w.toNat)) ∧
    (0xD000 ≤ w.toNat → w.toNat ≤ 0xDEFF → decodeWord w = .bCond (BitVec.ofNat 12 w.toNat)) ∧
    (0xDF00 ≤ w.toNat → w.toNat ≤ 0xDFFF → decodeWord w = .swi (BitVec.ofNat 8 w.toNat)))

/-- Selector 0x08: bit 10 clear is the ALU class, whose sub-opcode `w[9:6]` picks the operation by its place in the
source's list; bit 10 set is the hi-register class. The polarity and the numbering are the spec's own decision D10. -/
def Obligations.AluSubOpcodesFollowTheList : Prop :=
  (∀ (op : BitVec 4) (rs rd : RegIdx),
    [Instr.aluAnd rs rd, .aluEor rs rd, .aluLsl rs rd, .aluLsr rs rd, .aluAsr rs rd, .aluAdc rs rd, .aluSbc rs rd,
      .aluRor rs rd, .aluTst rs rd, .aluNeg rs rd, .aluCmp rs rd, .aluCmn rs rd, .aluOrr rs rd, .aluMul rs rd,
      .aluBic rs rd, .aluMvn rs rd][op.toNat]? = some (decodeWord (0b01000#5 ++ 0#1 ++ op ++ rs ++ rd))) ∧
  (∀ p : BitVec 10, decodeWord (0b01000#5 ++ 1#1 ++ p) = .hiRegOp p)

/-- Words written out from the spec's encodings, one for each family at least, decode to the instructions they stand for
(spec/95_test_vectors.md sections 1, 3 and 4). -/
def Obligations.WrittenOutWordsDecode : Prop :=
  decodeWord 0x0108#16 = .lslImm 4#5 1#3 0#3 ∧ decodeWord 0x081A#16 = .lsrImm 0#5 3#3 2#3 ∧
  decodeWord 0x1DD1#16 = .addImm3 7#3 2#3 1#3 ∧ decodeWord 0x1A88#16 = .subReg 2#3 1#3 0#3 ∧
  decodeWord 0x20FF#16 = .movImm8 0#3 255#8 ∧ decodeWord 0x3BFF#16 = .subImm8 3#3 255#8 ∧
  decodeWord 0x4248#16 = .aluNeg 1#3 0#3 ∧ decodeWord 0x4364#16 = .aluMul 4#3 4#3 ∧
  decodeWord 0x4770#16 = .hiRegOp 0x370#10 ∧ decodeWord 0x5E00#16 = .ldshReg 0#9 ∧
  decodeWord 0xB500#16 = .push 0x100#9 ∧ decodeWord 0xDE00#16 = .bCond 0xE00#12 ∧
  decodeWord 0xDF05#16 = .swi 5#8 ∧ decodeWord 0xE7FE#16 = .b 0x7FE#11 ∧ decodeWord 0xEFFF#16 = .undefined 0x7FF#11

/-! ### The step -/

/-- When the two bytes at `pc` decode to an instruction, a running step is `exec` of it at that state, and then the
reference driver's move: past the word after `EV_NONE`, nowhere after any other event (R9, R20: decisions D1, D3). -/
def Obligations.StepRunsTheDecodedInstruction : Prop :=
  ∀ (s : State) (i : Instr), Running s → decode [s.readByte s.pc, s.readByte (s.pc + 1)] = .ok (i, []) →
    step s = (match exec i s with
      | .next t => .next (if t.event = .evNone then { t with pc := t.pc + 2 } else t)
      | .fault r => .fault r
      | .refused r => .refused r)

/-- The step after a word is placed with `withFetchWord` runs exactly that word's instruction (the model's loading
convention, log 20). -/
def Obligations.PlacedWordIsTheNextInstruction : Prop :=
  ∀ (s : State) (nbits w : Nat), s.mem.wf = true → ∃ i, decodeTableWord nbits w = some i ∧
    step (s.withFetchWord nbits w) = advanceResult (exec i (s.withFetchWord nbits w)) ∧
    (nbits = 16 → w < 65536 → (encode i).toNat = w)

/-- A step with `SR.W = 1` has no meaning and is refused, at whatever address (R110, R224: decision D23, log 11). -/
def Obligations.WideModeIsRefused : Prop :=
  ∀ s : State, s.sr.w = true →
    (s.event = .evNone → step s = .refused .wideMode) ∧ (∀ pc : Word, blockStep pc s = .refused .wideMode)

/-- An undefined instruction is never executed as a no-operation or as another instruction (R199): the step reports
`EV_UNDEFINED`, and the run ends there. That the model's next step is then a fault is the model's own choice (log 13). -/
def Obligations.UndefinedEndsTheRun : Prop :=
  ∀ s : State, Running s → (decodeWord (s.fetch s.pc)).target.isUndefined = true → ∃ t, step s = .next t ∧
    ReportedOnly (.evUndefined (s.fetch s.pc) s.pc) s t ∧
    step t = .fault (.runEndedUndefined (s.fetch s.pc) s.pc)

/-- The undefined words are exactly 0xE800 to 0xEFFF, 0xB100 to 0xB3FF and 0xB600 to 0xB7FF; each reports `EV_UNDEFINED` and
changes no state, and no other word does (R108; which words of selector 0x16 those are rests on decision D17, log 9). -/
def Obligations.UndefinedWordsAreExactlyThese : Prop :=
  ∀ (s : State) (w : Half), Running s → s.fetch s.pc = w → ∃ t, step s = .next t ∧
    (((0xE800 ≤ w.toNat ∧ w.toNat ≤ 0xEFFF) ∨ (0xB100 ≤ w.toNat ∧ w.toNat ≤ 0xB3FF) ∨
        (0xB600 ≤ w.toNat ∧ w.toNat ≤ 0xB7FF)) →
      ReportedOnly (.evUndefined w s.pc) s t) ∧
    (¬((0xE800 ≤ w.toNat ∧ w.toNat ≤ 0xEFFF) ∨ (0xB100 ≤ w.toNat ∧ w.toNat ≤ 0xB3FF) ∨
        (0xB600 ≤ w.toNat ∧ w.toNat ≤ 0xB7FF)) →
      t.event.code ≠ 1)

/-- Every running step completes and reports exactly one event: `EV_NONE` for the implemented instructions, and for every
other target the one the table of R201 gives it, carrying the word and the `pc` of the step (R201, R205, R229; the names are
decision D20). -/
def Obligations.EveryStepReportsTheEventOfItsTarget : Prop :=
  ∀ (s : State) (g : Target), Running s → (decodeWord (s.fetch s.pc)).target = g → ∃ t, step s = .next t ∧
    (g.isImplemented = true → t.event = .evNone) ∧
    (g.isUndefined = true → t.event = .evUndefined (s.fetch s.pc) s.pc) ∧
    (g = .swi → t.event = .evSwi (s.fetch s.pc) s.pc) ∧
    (g.isStub = true → t.event = .evUnimplemented g (s.fetch s.pc) s.pc)

/-- The report is precise: when a step reports an event other than `EV_NONE`, the state is the state before the
instruction, but for the event port (R211, which the spec derives). -/
def Obligations.ReportIsPrecise : Prop :=
  ∀ s t : State, step s = .next t → t.event ≠ .evNone → t = { s with event := t.event } ∧ EventHonest t

/-- The reference driver: after `EV_NONE` the next address is `(pc + 2) mod 2^32`; after any other event it stays and no
step follows (R20, R230: decision D3, logs 1, 12 and 13). -/
def Obligations.DriverAdvancesByTwoOrStops : Prop :=
  ∀ s t : State, step s = .next t →
    (t.event = .evNone → t.pc.toNat = (s.pc.toNat + 2) % 2 ^ 32) ∧
    (t.event ≠ .evNone → t.pc = s.pc ∧ ∀ u, step t ≠ .next u)

/-- After an event the CPU core may load any 16-bit-mode status word and resume at any address, and the instruction there
runs, whatever state the run ended in (R212: decision D21; no alignment of the address is checked, R45: D5). -/
def Obligations.CoreMayResumeAnywhere : Prop :=
  ∀ (s : State) (word pc : Word), word.getLsbD 5 = false → ∃ t, drive [.load word, .step pc] s = .next t ∧
    exec (decodeWord (s.fetch pc)) { s with sr := StatusRegister.load word, pc := pc, event := .evNone } = .next t

/-! ### What the instructions do -/

/-- LSL_IMM (R126): the amount is the 5-bit field; that at 0 the value is copied and C kept, and the result for 1 to 31 (R114,
N36), are the spec's own inferences. -/
def Obligations.LslImmShiftsLeft : Prop :=
  ∀ (imm5 : BitVec 5) (rs rd : RegIdx) (s : State), ∃ t, exec (.lslImm imm5 rs rd) s = .next t ∧
    LslTable (s.x rs) imm5.toNat s.sr.c (t.x rd) t.sr.c ∧ NZOf (t.x rd) t ∧ t.sr.v = s.sr.v ∧
    SameRegsBut rd s t ∧ Retired s t

/-- LSR_IMM (R127): a literal 0 is a shift by 32; that N is always 0, and the result for 1 to 31 (R115, N36), are the spec's own
inferences. -/
def Obligations.LsrImmShiftsRight : Prop :=
  ∀ (imm5 : BitVec 5) (rs rd : RegIdx) (s : State), ∃ t, exec (.lsrImm imm5 rs rd) s = .next t ∧
    LsrTable (s.x rs) (if imm5.toNat = 0 then 32 else imm5.toNat) s.sr.c (t.x rd) t.sr.c ∧
    NZOf (t.x rd) t ∧ t.sr.n = false ∧ t.sr.v = s.sr.v ∧ SameRegsBut rd s t ∧ Retired s t

/-- ASR_IMM (R128): a literal 0 is a shift by 32; that N equals bit 31 of the value, and the result for 1 to 31 (R116, N36), are
the spec's own inferences. -/
def Obligations.AsrImmShiftsRightWithSign : Prop :=
  ∀ (imm5 : BitVec 5) (rs rd : RegIdx) (s : State), ∃ t, exec (.asrImm imm5 rs rd) s = .next t ∧
    AsrTable (s.x rs) (if imm5.toNat = 0 then 32 else imm5.toNat) s.sr.c (t.x rd) t.sr.c ∧
    NZOf (t.x rd) t ∧ t.sr.n = (s.x rs).getLsbD 31 ∧ t.sr.v = s.sr.v ∧ SameRegsBut rd s t ∧ Retired s t

/-- The three additions that write a register: ADD_REG, ADD_IMM3, ADD_IMM8 (R130, R131, R137). The value of C is the spec's
own decision D12 (log 17). -/
def Obligations.AdditionsAddAndSetAllFlags : Prop :=
  (∀ (rn rs rd : RegIdx) (s : State), ∃ t, exec (.addReg rn rs rd) s = .next t ∧
    t.x rd = sumWord (s.x rs) (s.x rn) false ∧ AddFlags (s.x rs) (s.x rn) false t ∧ SameRegsBut rd s t ∧ Retired s t) ∧
  (∀ (imm3 : BitVec 3) (rs rd : RegIdx) (s : State), ∃ t, exec (.addImm3 imm3 rs rd) s = .next t ∧
    t.x rd = sumWord (s.x rs) (BitVec.ofNat 32 imm3.toNat) false ∧
    AddFlags (s.x rs) (BitVec.ofNat 32 imm3.toNat) false t ∧ SameRegsBut rd s t ∧ Retired s t) ∧
  (∀ (rd : RegIdx) (imm8 : BitVec 8) (s : State), ∃ t, exec (.addImm8 rd imm8) s = .next t ∧
    t.x rd = sumWord (s.x rd) (BitVec.ofNat 32 imm8.toNat) false ∧
    AddFlags (s.x rd) (BitVec.ofNat 32 imm8.toNat) false t ∧ SameRegsBut rd s t ∧ Retired s t)

/-- The three subtractions that write a register: SUB_REG, SUB_IMM3, SUB_IMM8 (R132, R133, R138). The value of C is the
spec's own decision D12 (log 17). -/
def Obligations.SubtractionsSubtractAndSetAllFlags : Prop :=
  (∀ (rn rs rd : RegIdx) (s : State), ∃ t, exec (.subReg rn rs rd) s = .next t ∧
    t.x rd = differenceWord (s.x rs) (s.x rn) true ∧ SubFlags (s.x rs) (s.x rn) true t ∧
    SameRegsBut rd s t ∧ Retired s t) ∧
  (∀ (imm3 : BitVec 3) (rs rd : RegIdx) (s : State), ∃ t, exec (.subImm3 imm3 rs rd) s = .next t ∧
    t.x rd = differenceWord (s.x rs) (BitVec.ofNat 32 imm3.toNat) true ∧
    SubFlags (s.x rs) (BitVec.ofNat 32 imm3.toNat) true t ∧ SameRegsBut rd s t ∧ Retired s t) ∧
  (∀ (rd : RegIdx) (imm8 : BitVec 8) (s : State), ∃ t, exec (.subImm8 rd imm8) s = .next t ∧
    t.x rd = differenceWord (s.x rd) (BitVec.ofNat 32 imm8.toNat) true ∧
    SubFlags (s.x rd) (BitVec.ofNat 32 imm8.toNat) true t ∧ SameRegsBut rd s t ∧ Retired s t)

/-- The compares write the flags of the subtraction or addition and no register: CMP_IMM8, ALU_CMP, ALU_CMN (R136, R151,
R152). The value of C is the spec's own decision D12 (log 17). -/
def Obligations.ComparesSetFlagsAndNoRegister : Prop :=
  (∀ (rd : RegIdx) (imm8 : BitVec 8) (s : State), ∃ t, exec (.cmpImm8 rd imm8) s = .next t ∧
    SubFlags (s.x rd) (BitVec.ofNat 32 imm8.toNat) true t ∧ SameRegs s t ∧ Retired s t) ∧
  (∀ (rs rd : RegIdx) (s : State), ∃ t, exec (.aluCmp rs rd) s = .next t ∧
    SubFlags (s.x rd) (s.x rs) true t ∧ SameRegs s t ∧ Retired s t) ∧
  (∀ (rs rd : RegIdx) (s : State), ∃ t, exec (.aluCmn rs rd) s = .next t ∧
    AddFlags (s.x rd) (s.x rs) false t ∧ SameRegs s t ∧ Retired s t)

/-- MOV_IMM8 loads the zero-extended immediate, writes N with 0, Z from the immediate, and keeps C and V (R135; Z, C and V
are the spec's own decision D15, log 18). -/
def Obligations.MovImm8LoadsTheZeroExtendedByte : Prop :=
  ∀ (rd : RegIdx) (imm8 : BitVec 8) (s : State), ∃ t, exec (.movImm8 rd imm8) s = .next t ∧
    (t.x rd).toNat = imm8.toNat ∧ t.sr.n = false ∧ t.sr.z = decide (imm8.toNat = 0) ∧
    t.sr.c = s.sr.c ∧ t.sr.v = s.sr.v ∧ SameRegsBut rd s t ∧ Retired s t

/-- R141, R142, R153, R155, R156: the encoding and the effect of the logical operations, bit by bit; N and Z from the result, C
and V untouched. -/
def Obligations.LogicalOperationsWorkBitByBit : Prop :=
  ∀ (rs rd : RegIdx) (s : State),
    decodeWord (0b01000#5 ++ 0#1 ++ 0x0#4 ++ rs ++ rd) = .aluAnd rs rd ∧
    (∃ t, exec (.aluAnd rs rd) s = .next t ∧
      (∀ k, k < 32 → (t.x rd).getLsbD k = ((s.x rd).getLsbD k && (s.x rs).getLsbD k)) ∧
      NZOf (t.x rd) t ∧ t.sr.c = s.sr.c ∧ t.sr.v = s.sr.v ∧ SameRegsBut rd s t ∧ Retired s t) ∧
    decodeWord (0b01000#5 ++ 0#1 ++ 0x1#4 ++ rs ++ rd) = .aluEor rs rd ∧
    (∃ t, exec (.aluEor rs rd) s = .next t ∧
      (∀ k, k < 32 → (t.x rd).getLsbD k = ((s.x rd).getLsbD k != (s.x rs).getLsbD k)) ∧
      NZOf (t.x rd) t ∧ t.sr.c = s.sr.c ∧ t.sr.v = s.sr.v ∧ SameRegsBut rd s t ∧ Retired s t) ∧
    decodeWord (0b01000#5 ++ 0#1 ++ 0xC#4 ++ rs ++ rd) = .aluOrr rs rd ∧
    (∃ t, exec (.aluOrr rs rd) s = .next t ∧
      (∀ k, k < 32 → (t.x rd).getLsbD k = ((s.x rd).getLsbD k || (s.x rs).getLsbD k)) ∧
      NZOf (t.x rd) t ∧ t.sr.c = s.sr.c ∧ t.sr.v = s.sr.v ∧ SameRegsBut rd s t ∧ Retired s t) ∧
    decodeWord (0b01000#5 ++ 0#1 ++ 0xE#4 ++ rs ++ rd) = .aluBic rs rd ∧
    (∃ t, exec (.aluBic rs rd) s = .next t ∧
      (∀ k, k < 32 → (t.x rd).getLsbD k = ((s.x rd).getLsbD k && !(s.x rs).getLsbD k)) ∧
      NZOf (t.x rd) t ∧ t.sr.c = s.sr.c ∧ t.sr.v = s.sr.v ∧ SameRegsBut rd s t ∧ Retired s t) ∧
    decodeWord (0b01000#5 ++ 0#1 ++ 0xF#4 ++ rs ++ rd) = .aluMvn rs rd ∧
    (∃ t, exec (.aluMvn rs rd) s = .next t ∧
      (∀ k, k < 32 → (t.x rd).getLsbD k = !(s.x rs).getLsbD k) ∧
      NZOf (t.x rd) t ∧ t.sr.c = s.sr.c ∧ t.sr.v = s.sr.v ∧ SameRegsBut rd s t ∧ Retired s t)

/-- R149: ALU_TST, its encoding and effect: it writes N and Z of the conjunction, no register, and leaves C and V. -/
def Obligations.TstSetsNAndZOnly : Prop :=
  ∀ (rs rd : RegIdx) (s : State), decodeWord (0b01000#5 ++ 0#1 ++ 0x8#4 ++ rs ++ rd) = .aluTst rs rd ∧ ∃ t,
    exec (.aluTst rs rd) s = .next t ∧
    t.sr.n = ((s.x rd).getLsbD 31 && (s.x rs).getLsbD 31) ∧
    (t.sr.z = true ↔ ∀ k, k < 32 → ((s.x rd).getLsbD k && (s.x rs).getLsbD k) = false) ∧
    t.sr.c = s.sr.c ∧ t.sr.v = s.sr.v ∧ SameRegs s t ∧ Retired s t

/-- ALU_LSL (R143), its encoding and effect: it shifts `x[rd]` by the low 8 bits of `x[rs]`, the full 0 to 255. The result for
amounts 1 to 31 is R114's row, the spec's own inference ("derived: from the name of the operation"; N36). -/
def Obligations.AluLslShiftsByARegister : Prop :=
  ∀ (rs rd : RegIdx) (s : State), decodeWord (0b01000#5 ++ 0#1 ++ 0x2#4 ++ rs ++ rd) = .aluLsl rs rd ∧ ∃ t,
    exec (.aluLsl rs rd) s = .next t ∧
    LslTable (s.x rd) (lowEight (s.x rs)) s.sr.c (t.x rd) t.sr.c ∧ NZOf (t.x rd) t ∧ t.sr.v = s.sr.v ∧
    SameRegsBut rd s t ∧ Retired s t

/-- ALU_LSR (R144), its encoding and effect. The result for amounts 1 to 31 is R115's row, which N36 says the spec takes from the
name of the operation. -/
def Obligations.AluLsrShiftsByARegister : Prop :=
  ∀ (rs rd : RegIdx) (s : State), decodeWord (0b01000#5 ++ 0#1 ++ 0x3#4 ++ rs ++ rd) = .aluLsr rs rd ∧ ∃ t,
    exec (.aluLsr rs rd) s = .next t ∧
    LsrTable (s.x rd) (lowEight (s.x rs)) s.sr.c (t.x rd) t.sr.c ∧ NZOf (t.x rd) t ∧ t.sr.v = s.sr.v ∧
    SameRegsBut rd s t ∧ Retired s t

/-- ALU_ASR (R145), its encoding and effect. The result for amounts 1 to 31 is R116's row, which N36 says the spec takes from the
name of the operation. -/
def Obligations.AluAsrShiftsByARegister : Prop :=
  ∀ (rs rd : RegIdx) (s : State), decodeWord (0b01000#5 ++ 0#1 ++ 0x4#4 ++ rs ++ rd) = .aluAsr rs rd ∧ ∃ t,
    exec (.aluAsr rs rd) s = .next t ∧
    AsrTable (s.x rd) (lowEight (s.x rs)) s.sr.c (t.x rd) t.sr.c ∧ NZOf (t.x rd) t ∧ t.sr.v = s.sr.v ∧
    SameRegsBut rd s t ∧ Retired s t

/-- ALU_ROR rotates `x[rd]` right; the carry is written for every amount, 0 among them (R117, R148; where the amount comes
from is the spec's own decision D27). -/
def Obligations.AluRorRotatesByARegister : Prop :=
  ∀ (rs rd : RegIdx) (s : State), ∃ t, exec (.aluRor rs rd) s = .next t ∧
    RorTable (s.x rd) (lowEight (s.x rs)) (t.x rd) t.sr.c ∧ NZOf (t.x rd) t ∧ t.sr.v = s.sr.v ∧
    SameRegsBut rd s t ∧ Retired s t

/-- ALU_ADC and ALU_SBC take `SR.C` as it was before the instruction as carry-in and as not-borrow-in (R146, R147; the
outgoing C is the spec's own decision D12, log 17). -/
def Obligations.CarryArithmeticReadsTheOldCarry : Prop :=
  ∀ (rs rd : RegIdx) (s : State),
    (∃ t, exec (.aluAdc rs rd) s = .next t ∧ t.x rd = sumWord (s.x rd) (s.x rs) s.sr.c ∧
      AddFlags (s.x rd) (s.x rs) s.sr.c t ∧ SameRegsBut rd s t ∧ Retired s t) ∧
    (∃ t, exec (.aluSbc rs rd) s = .next t ∧ t.x rd = differenceWord (s.x rd) (s.x rs) s.sr.c ∧
      SubFlags (s.x rd) (s.x rs) s.sr.c t ∧ SameRegsBut rd s t ∧ Retired s t)

/-- ALU_NEG: V is set exactly for the operands 0 and 0x80000000; C is not written (R150; the latter is the spec's own
decision D14, log 18). -/
def Obligations.NegOverflowsAtZeroAndTheMinimum : Prop :=
  ∀ (rs rd : RegIdx) (s : State), ∃ t, exec (.aluNeg rs rd) s = .next t ∧
    (t.x rd).toNat = (2 ^ 32 - (s.x rs).toNat) % 2 ^ 32 ∧
    t.sr.v = decide ((s.x rs).toNat = 0 ∨ (s.x rs).toNat = 2 ^ 31) ∧
    NZOf (t.x rd) t ∧ t.sr.c = s.sr.c ∧ SameRegsBut rd s t ∧ Retired s t

/-- R154: ALU_MUL, its encoding and effect: it writes the low 32 bits of the product, C with 0, N and Z from the result, and
leaves V. -/
def Obligations.MulKeepsTheLowWordAndClearsCarry : Prop :=
  ∀ (rs rd : RegIdx) (s : State), decodeWord (0b01000#5 ++ 0#1 ++ 0xD#4 ++ rs ++ rd) = .aluMul rs rd ∧ ∃ t,
    exec (.aluMul rs rd) s = .next t ∧
    (t.x rd).toNat = (s.x rd).toNat * (s.x rs).toNat % 2 ^ 32 ∧ t.sr.c = false ∧
    NZOf (t.x rd) t ∧ t.sr.v = s.sr.v ∧ SameRegsBut rd s t ∧ Retired s t

/-- The hi-register class, the pc-relative load and the eight register-offset targets report `EV_UNIMPLEMENTED` with their
target, word and address, and write nothing (R161 to R171; the report is the spec's own decision D19, log 12). -/
def Obligations.HiRegAndRegisterOffsetStubsReport : Prop :=
  ∀ s : State,
    (∀ p : BitVec 10, ∃ t, exec (.hiRegOp p) s = .next t ∧
      ReportedOnly (.evUnimplemented .hiRegOp (BitVec.ofNat 16 (0x4400 + p.toNat)) s.pc) s t) ∧
    (∀ p : BitVec 11, ∃ t, exec (.ldrPc p) s = .next t ∧
      ReportedOnly (.evUnimplemented .ldrPc (BitVec.ofNat 16 (0x4800 + p.toNat)) s.pc) s t) ∧
    (∀ p : BitVec 9, ∃ t, exec (.strReg p) s = .next t ∧
      ReportedOnly (.evUnimplemented .strReg (BitVec.ofNat 16 (0x5000 + p.toNat)) s.pc) s t) ∧
    (∀ p : BitVec 9, ∃ t, exec (.strhReg p) s = .next t ∧
      ReportedOnly (.evUnimplemented .strhReg (BitVec.ofNat 16 (0x5200 + p.toNat)) s.pc) s t) ∧
    (∀ p : BitVec 9, ∃ t, exec (.strbReg p) s = .next t ∧
      ReportedOnly (.evUnimplemented .strbReg (BitVec.ofNat 16 (0x5400 + p.toNat)) s.pc) s t) ∧
    (∀ p : BitVec 9, ∃ t, exec (.ldsbReg p) s = .next t ∧
      ReportedOnly (.evUnimplemented .ldsbReg (BitVec.ofNat 16 (0x5600 + p.toNat)) s.pc) s t) ∧
    (∀ p : BitVec 9, ∃ t, exec (.ldrReg p) s = .next t ∧
      ReportedOnly (.evUnimplemented .ldrReg (BitVec.ofNat 16 (0x5800 + p.toNat)) s.pc) s t) ∧
    (∀ p : BitVec 9, ∃ t, exec (.ldrhReg p) s = .next t ∧
      ReportedOnly (.evUnimplemented .ldrhReg (BitVec.ofNat 16 (0x5A00 + p.toNat)) s.pc) s t) ∧
    (∀ p : BitVec 9, ∃ t, exec (.ldrbReg p) s = .next t ∧
      ReportedOnly (.evUnimplemented .ldrbReg (BitVec.ofNat 16 (0x5C00 + p.toNat)) s.pc) s t) ∧
    (∀ p : BitVec 9, ∃ t, exec (.ldshReg p) s = .next t ∧
      ReportedOnly (.evUnimplemented .ldshReg (BitVec.ofNat 16 (0x5E00 + p.toNat)) s.pc) s t)

/-- The immediate-offset and stack-pointer-relative loads and stores report `EV_UNIMPLEMENTED` and write nothing (R161, R172 to
R179; decision D19, log 12). -/
def Obligations.ImmediateAndStackRelativeStubsReport : Prop :=
  ∀ s : State,
    (∀ p : BitVec 11, ∃ t, exec (.strImm p) s = .next t ∧
      ReportedOnly (.evUnimplemented .strImm (BitVec.ofNat 16 (0x6000 + p.toNat)) s.pc) s t) ∧
    (∀ p : BitVec 11, ∃ t, exec (.ldrImm p) s = .next t ∧
      ReportedOnly (.evUnimplemented .ldrImm (BitVec.ofNat 16 (0x6800 + p.toNat)) s.pc) s t) ∧
    (∀ p : BitVec 11, ∃ t, exec (.strbImm p) s = .next t ∧
      ReportedOnly (.evUnimplemented .strbImm (BitVec.ofNat 16 (0x7000 + p.toNat)) s.pc) s t) ∧
    (∀ p : BitVec 11, ∃ t, exec (.ldrbImm p) s = .next t ∧
      ReportedOnly (.evUnimplemented .ldrbImm (BitVec.ofNat 16 (0x7800 + p.toNat)) s.pc) s t) ∧
    (∀ p : BitVec 11, ∃ t, exec (.strhImm p) s = .next t ∧
      ReportedOnly (.evUnimplemented .strhImm (BitVec.ofNat 16 (0x8000 + p.toNat)) s.pc) s t) ∧
    (∀ p : BitVec 11, ∃ t, exec (.ldrhImm p) s = .next t ∧
      ReportedOnly (.evUnimplemented .ldrhImm (BitVec.ofNat 16 (0x8800 + p.toNat)) s.pc) s t) ∧
    (∀ p : BitVec 11, ∃ t, exec (.strSp p) s = .next t ∧
      ReportedOnly (.evUnimplemented .strSp (BitVec.ofNat 16 (0x9000 + p.toNat)) s.pc) s t) ∧
    (∀ p : BitVec 11, ∃ t, exec (.ldrSp p) s = .next t ∧
      ReportedOnly (.evUnimplemented .ldrSp (BitVec.ofNat 16 (0x9800 + p.toNat)) s.pc) s t)

/-- The load-address forms, the stack adjustment, push, pop, the multiple transfers and the branches report
`EV_UNIMPLEMENTED`, never a taken branch and never a no-op, and write nothing (R161, R180 to R190; decisions D17, D19, logs
9 and 12). -/
def Obligations.AddressStackMultipleAndBranchStubsReport : Prop :=
  ∀ s : State,
    (∀ p : BitVec 11, ∃ t, exec (.loadAddress14 p) s = .next t ∧
      ReportedOnly (.evUnimplemented .loadAddress14 (BitVec.ofNat 16 (0xA000 + p.toNat)) s.pc) s t) ∧
    (∀ p : BitVec 11, ∃ t, exec (.loadAddress15 p) s = .next t ∧
      ReportedOnly (.evUnimplemented .loadAddress15 (BitVec.ofNat 16 (0xA800 + p.toNat)) s.pc) s t) ∧
    (∀ p : BitVec 8, ∃ t, exec (.addSpOffset p) s = .next t ∧
      ReportedOnly (.evUnimplemented .addSpOffset (BitVec.ofNat 16 (0xB000 + p.toNat)) s.pc) s t) ∧
    (∀ p : BitVec 9, ∃ t, exec (.push p) s = .next t ∧
      ReportedOnly (.evUnimplemented .push (BitVec.ofNat 16 (0xB400 + p.toNat)) s.pc) s t) ∧
    (∀ p : BitVec 11, ∃ t, exec (.pop p) s = .next t ∧
      ReportedOnly (.evUnimplemented .pop (BitVec.ofNat 16 (0xB800 + p.toNat)) s.pc) s t) ∧
    (∀ p : BitVec 11, ∃ t, exec (.stmia p) s = .next t ∧
      ReportedOnly (.evUnimplemented .stmia (BitVec.ofNat 16 (0xC000 + p.toNat)) s.pc) s t) ∧
    (∀ p : BitVec 11, ∃ t, exec (.ldmia p) s = .next t ∧
      ReportedOnly (.evUnimplemented .ldmia (BitVec.ofNat 16 (0xC800 + p.toNat)) s.pc) s t) ∧
    (∀ p : BitVec 12, ∃ t, exec (.bCond p) s = .next t ∧
      ReportedOnly (.evUnimplemented .bCond (BitVec.ofNat 16 (0xD000 + p.toNat)) s.pc) s t) ∧
    (∀ p : BitVec 11, ∃ t, exec (.b p) s = .next t ∧
      ReportedOnly (.evUnimplemented .b (BitVec.ofNat 16 (0xE000 + p.toNat)) s.pc) s t) ∧
    (∀ p : BitVec 11, ∃ t, exec (.blLow p) s = .next t ∧
      ReportedOnly (.evUnimplemented .blLow (BitVec.ofNat 16 (0xF000 + p.toNat)) s.pc) s t) ∧
    (∀ p : BitVec 11, ∃ t, exec (.blHigh p) s = .next t ∧
      ReportedOnly (.evUnimplemented .blHigh (BitVec.ofNat 16 (0xF800 + p.toNat)) s.pc) s t)

/-- R196: every word of selector 0x1D, the undefined-instruction trap, reports `EV_UNDEFINED` with its word and address and
writes nothing. -/
def Obligations.UndefinedReportsItsWord : Prop :=
  ∀ (p : BitVec 11) (s : State), decodeWord (0b11101#5 ++ p) = .undefined p ∧ ∃ t, exec (.undefined p) s = .next t ∧
    ReportedOnly (.evUndefined (BitVec.ofNat 16 (0xE800 + p.toNat)) s.pc) s t

/-- UNDEF_16 reports `EV_UNDEFINED` for every word that falls to it (R197; which words those are is decision D17, log 9), and
the software interrupt reports `EV_SWI` with its word, payload and all, and its address: no mode change, no saved status, no
vector (R198, R210: decision D21, log 13). Neither writes anything. -/
def Obligations.UnhandledWordsAndSoftwareInterruptReport : Prop :=
  ∀ s : State,
    (∀ p : BitVec 11, ∃ t, exec (.undef16 p) s = .next t ∧
      ReportedOnly (.evUndefined (BitVec.ofNat 16 (0xB000 + p.toNat)) s.pc) s t) ∧
    (∀ p : BitVec 8, ∃ t, exec (.swi p) s = .next t ∧
      ReportedOnly (.evSwi (BitVec.ofNat 16 (0xDF00 + p.toNat)) s.pc) s t)

/-! ### Rules of the whole machine -/

/-- The flag table of R23, over all 59 targets: a flag an instruction does not write keeps its value, and N, Z of an
instruction that writes a register are those of the value written (R23 is derived in the spec; see D12 to D15). -/
def Obligations.OnlyTheNamedFlagsChange : Prop :=
  ∀ (i : Instr) (s t : State), exec i s = .next t →
    (writesNZ i = false → t.sr.n = s.sr.n ∧ t.sr.z = s.sr.z) ∧
    (writesC s i = false → t.sr.c = s.sr.c) ∧ (writesV i = false → t.sr.v = s.sr.v) ∧
    (∀ rd, regWritten i = some rd → NZOf (t.x rd) t)

/-- The register table of R15, over all 59 targets: no register but the named one changes, and what an instruction writes
depends on the named registers and on the status register alone (R15 is derived in the spec). -/
def Obligations.OnlyTheNamedRegistersAreReadOrWritten : Prop :=
  (∀ (i : Instr) (s t : State), exec i s = .next t → ∀ j : RegIdx, regWritten i ≠ some j → t.x j = s.x j) ∧
  (∀ (i : Instr) (s s' t t' : State), s.sr = s'.sr → (∀ j ∈ regsRead i, s.x j = s'.x j) →
    exec i s = .next t → exec i s' = .next t' →
    t.sr = t'.sr ∧ ∀ rd, regWritten i = some rd → t.x rd = t'.x rd)

/-- Of the condition flags only C is ever read: from two states with the same registers and the same C, whatever their N, Z, V,
masks and mode, an instruction leaves the same registers, the same C, and the same value in each other flag that it writes
(R24, R34, which the spec derives). -/
def Obligations.OnlyTheCarryFlagIsRead : Prop :=
  ∀ (i : Instr) (s s' t t' : State), s.regs = s'.regs → s.sr.c = s'.sr.c →
    exec i s = .next t → exec i s' = .next t' →
    t.regs = t'.regs ∧ t.sr.c = t'.sr.c ∧ (writesNZ i = true → t.sr.n = t'.sr.n ∧ t.sr.z = t'.sr.z) ∧
    (writesV i = true → t.sr.v = t'.sr.v)

/-- Every step behaves the same in every mode and with any interrupt masks (R214, R209: decisions D29, D30; R34 derived). -/
def Obligations.ModeAndMasksNeverMatter : Prop :=
  ∀ (s : State) (i f : Bool) (m : BitVec 5), step (s.withMode i f m) = modeOnResult i f m (step s)

/-- Whatever the CPU core does, I, F, W and the mode change only by `load` (R34, which the spec derives). -/
def Obligations.ControlFieldsChangeOnlyByLoad : Prop :=
  ∀ (calls : List CoreCall) (s t : State), (∀ word, CoreCall.load word ∉ calls) →
    drive calls s = .next t → SameControl s t

/-- The block never writes memory and never writes `pc`: what an instruction leaves is the memory and the address it was
given (R18, R42). -/
def Obligations.BlockWritesNeitherMemoryNorPc : Prop :=
  ∀ (i : Instr) (s t : State), exec i s = .next t → SameMemory s t ∧ t.mem = s.mem ∧ t.pc = s.pc

/-- Every step keeps the invariant of a run: canonical memory, a defined mode, the 16-bit subset active, an honest event port.
The canonical form is the model's own (log 7), and so is holding the event in the state as a port (log 2). -/
def Obligations.StepKeepsTheRunInvariant : Prop :=
  ∀ s t : State, Inv s → step s = .next t → Inv t

/-- V of `AddC` and `SubC` is signed overflow of `a + b + cin` and of `a - b - (1 - cin)`, carry or borrow in included
(R122, which the spec derives). -/
def Obligations.OverflowIsSignedOverflow : Prop :=
  ∀ (sr : StatusRegister) (a b : Word) (cin : Bool),
    ((addC sr a b cin).2.v = true ↔
      a.toInt + b.toInt + cin.toNat < -(2 ^ 31) ∨ 2 ^ 31 ≤ a.toInt + b.toInt + cin.toNat) ∧
    ((subC sr a b cin).2.v = true ↔
      a.toInt - b.toInt - (1 - cin.toNat) < -(2 ^ 31) ∨ 2 ^ 31 ≤ a.toInt - b.toInt - (1 - cin.toNat))

/-- Multi-word arithmetic chains through C: two words added or subtracted low first give the 64-bit sum or difference (the
purpose R123 gives its choice of C: decision D12, log 17). -/
def Obligations.MultiWordArithmeticChainsThroughCarry : Prop :=
  ∀ (sr : StatusRegister) (aLo aHi bLo bHi : Word),
    (let lo := setAddFlags sr aLo bLo
     let hi := setAddCarryFlags lo.2 aHi bHi
     hi.1 ++ lo.1 = (aHi ++ aLo) + (bHi ++ bLo)) ∧
    (let lo := setSubFlags sr aLo bLo
     let hi := setSubCarryFlags lo.2 aHi bHi
     hi.1 ++ lo.1 = (aHi ++ aLo) - (bHi ++ bLo))
end

