-- ==== Sys2Proof/Laws/State.lean ====
section
/-! SUPPORT. One lemma per field per update of the state, true by rfl; what each shared operation does to registers and
bytes; so that no later proof unfolds a record update. -/

namespace Sys2Proof.Machine

@[simp] theorem State.load_regs (s : State) (word : Word) : (s.load word).regs = s.regs := rfl
@[simp] theorem State.load_sr (s : State) (word : Word) : (s.load word).sr = StatusRegister.load word := rfl
@[simp] theorem State.load_pc (s : State) (word : Word) : (s.load word).pc = s.pc := rfl
@[simp] theorem State.load_mem (s : State) (word : Word) : (s.load word).mem = s.mem := rfl
@[simp] theorem State.load_event (s : State) (word : Word) : (s.load word).event = s.event := rfl

@[simp] theorem State.setLowReg_regs (s : State) (packed : Byte) (value : Word) : (s.setLowReg packed value).regs = setReg s.regs (lowIndex packed) value := rfl
@[simp] theorem State.setLowReg_sr (s : State) (packed : Byte) (value : Word) : (s.setLowReg packed value).sr = s.sr := rfl
@[simp] theorem State.setLowReg_pc (s : State) (packed : Byte) (value : Word) : (s.setLowReg packed value).pc = s.pc := rfl
@[simp] theorem State.setLowReg_mem (s : State) (packed : Byte) (value : Word) : (s.setLowReg packed value).mem = s.mem := rfl
@[simp] theorem State.setLowReg_event (s : State) (packed : Byte) (value : Word) : (s.setLowReg packed value).event = s.event := rfl

@[simp] theorem State.pokeByte_regs (s : State) (a : Word) (b : Byte) : (s.pokeByte a b).regs = s.regs := rfl
@[simp] theorem State.pokeByte_sr (s : State) (a : Word) (b : Byte) : (s.pokeByte a b).sr = s.sr := rfl
@[simp] theorem State.pokeByte_pc (s : State) (a : Word) (b : Byte) : (s.pokeByte a b).pc = s.pc := rfl
@[simp] theorem State.pokeByte_mem (s : State) (a : Word) (b : Byte) : (s.pokeByte a b).mem = Memory.write s.mem a.toNat b := rfl
@[simp] theorem State.pokeByte_event (s : State) (a : Word) (b : Byte) : (s.pokeByte a b).event = s.event := rfl

@[simp] theorem State.writeResult_regs (s : State) (rd : RegIdx) (out : Word × StatusRegister) : (s.writeResult rd out).regs = setReg s.regs rd out.1 := rfl
@[simp] theorem State.writeResult_sr (s : State) (rd : RegIdx) (out : Word × StatusRegister) : (s.writeResult rd out).sr = out.2 := rfl
@[simp] theorem State.writeResult_pc (s : State) (rd : RegIdx) (out : Word × StatusRegister) : (s.writeResult rd out).pc = s.pc := rfl
@[simp] theorem State.writeResult_mem (s : State) (rd : RegIdx) (out : Word × StatusRegister) : (s.writeResult rd out).mem = s.mem := rfl
@[simp] theorem State.writeResult_event (s : State) (rd : RegIdx) (out : Word × StatusRegister) : (s.writeResult rd out).event = .evNone := rfl

@[simp] theorem State.writeFlags_regs (s : State) (out : Word × StatusRegister) : (s.writeFlags out).regs = s.regs := rfl
@[simp] theorem State.writeFlags_sr (s : State) (out : Word × StatusRegister) : (s.writeFlags out).sr = out.2 := rfl
@[simp] theorem State.writeFlags_pc (s : State) (out : Word × StatusRegister) : (s.writeFlags out).pc = s.pc := rfl
@[simp] theorem State.writeFlags_mem (s : State) (out : Word × StatusRegister) : (s.writeFlags out).mem = s.mem := rfl
@[simp] theorem State.writeFlags_event (s : State) (out : Word × StatusRegister) : (s.writeFlags out).event = .evNone := rfl

@[simp] theorem State.raise_regs (s : State) (e : Event) : (s.raise e).regs = s.regs := rfl
@[simp] theorem State.raise_sr (s : State) (e : Event) : (s.raise e).sr = s.sr := rfl
@[simp] theorem State.raise_pc (s : State) (e : Event) : (s.raise e).pc = s.pc := rfl
@[simp] theorem State.raise_mem (s : State) (e : Event) : (s.raise e).mem = s.mem := rfl
@[simp] theorem State.raise_event (s : State) (e : Event) : (s.raise e).event = e := rfl

@[simp] theorem State.present_regs (s : State) (pc : Word) : (s.present pc).regs = s.regs := rfl
@[simp] theorem State.present_sr (s : State) (pc : Word) : (s.present pc).sr = s.sr := rfl
@[simp] theorem State.present_pc (s : State) (pc : Word) : (s.present pc).pc = pc := rfl
@[simp] theorem State.present_mem (s : State) (pc : Word) : (s.present pc).mem = s.mem := rfl
@[simp] theorem State.present_event (s : State) (pc : Word) : (s.present pc).event = .evNone := rfl

@[simp] theorem State.placeWord_regs (s : State) (pc : Word) (w : Half) : (s.placeWord pc w).regs = s.regs := rfl
@[simp] theorem State.placeWord_sr (s : State) (pc : Word) (w : Half) : (s.placeWord pc w).sr = s.sr := rfl
@[simp] theorem State.placeWord_pc (s : State) (pc : Word) (w : Half) : (s.placeWord pc w).pc = s.pc := rfl
@[simp] theorem State.placeWord_mem (s : State) (pc : Word) (w : Half) : (s.placeWord pc w).mem = Memory.write (Memory.write s.mem pc.toNat (lowByte w)) (pc + 1).toNat (highByte w) := rfl
@[simp] theorem State.placeWord_event (s : State) (pc : Word) (w : Half) : (s.placeWord pc w).event = s.event := rfl

@[simp] theorem State.withMode_regs (s : State) (i f : Bool) (m : BitVec 5) : (s.withMode i f m).regs = s.regs := rfl
@[simp] theorem State.withMode_sr (s : State) (i f : Bool) (m : BitVec 5) : (s.withMode i f m).sr = { s.sr with i := i, f := f, m := m } := rfl
@[simp] theorem State.withMode_pc (s : State) (i f : Bool) (m : BitVec 5) : (s.withMode i f m).pc = s.pc := rfl
@[simp] theorem State.withMode_mem (s : State) (i f : Bool) (m : BitVec 5) : (s.withMode i f m).mem = s.mem := rfl
@[simp] theorem State.withMode_event (s : State) (i f : Bool) (m : BitVec 5) : (s.withMode i f m).event = s.event := rfl

@[simp] theorem setNZ_n (sr : StatusRegister) (r : Word) : (setNZ sr r).n = r.getLsbD 31 := rfl
@[simp] theorem setNZ_z (sr : StatusRegister) (r : Word) : (setNZ sr r).z = (r == 0#32) := rfl
@[simp] theorem setNZ_c (sr : StatusRegister) (r : Word) : (setNZ sr r).c = sr.c := rfl
@[simp] theorem setNZ_v (sr : StatusRegister) (r : Word) : (setNZ sr r).v = sr.v := rfl
@[simp] theorem setNZ_i (sr : StatusRegister) (r : Word) : (setNZ sr r).i = sr.i := rfl
@[simp] theorem setNZ_f (sr : StatusRegister) (r : Word) : (setNZ sr r).f = sr.f := rfl
@[simp] theorem setNZ_w (sr : StatusRegister) (r : Word) : (setNZ sr r).w = sr.w := rfl
@[simp] theorem setNZ_m (sr : StatusRegister) (r : Word) : (setNZ sr r).m = sr.m := rfl

/-! ### Registers -/

/-- Reading the register file after a write. -/
theorem getReg_setReg (regs : Vector Word 8) (i j : RegIdx) (v : Word) (h : j.toNat < 8) :
    (setReg regs i v)[j.toNat]'h = if j = i then v else regs[j.toNat]'h := by
  unfold setReg
  rw [Vector.getElem_set]
  by_cases hij : j = i
  · simp [hij]
  · have : i.toNat ≠ j.toNat := fun e => hij (BitVec.eq_of_toNat_eq e.symm)
    simp [hij, this]

@[simp] theorem State.writeResult_x (s : State) (rd j : RegIdx) (out : Word × StatusRegister) :
    (s.writeResult rd out).x j = if j = rd then out.1 else s.x j := getReg_setReg s.regs rd j out.1 _

@[simp] theorem State.setLowReg_x (s : State) (packed : Byte) (v : Word) (j : RegIdx) :
    (s.setLowReg packed v).x j = if j = lowIndex packed then v else s.x j := getReg_setReg s.regs (lowIndex packed) j v _

@[simp] theorem State.writeFlags_x (s : State) (out : Word × StatusRegister) (j : RegIdx) :
    (s.writeFlags out).x j = s.x j := rfl
@[simp] theorem State.raise_x (s : State) (e : Event) (j : RegIdx) : (s.raise e).x j = s.x j := rfl
@[simp] theorem State.present_x (s : State) (pc : Word) (j : RegIdx) : (s.present pc).x j = s.x j := rfl
@[simp] theorem State.load_x (s : State) (word : Word) (j : RegIdx) : (s.load word).x j = s.x j := rfl
@[simp] theorem State.withMode_x (s : State) (i f : Bool) (m : BitVec 5) (j : RegIdx) :
    (s.withMode i f m).x j = s.x j := rfl

/-! ### Bytes -/

@[simp] theorem State.writeResult_readByte (s : State) (rd : RegIdx) (out : Word × StatusRegister) (a : Word) :
    (s.writeResult rd out).readByte a = s.readByte a := rfl
@[simp] theorem State.writeFlags_readByte (s : State) (out : Word × StatusRegister) (a : Word) :
    (s.writeFlags out).readByte a = s.readByte a := rfl
@[simp] theorem State.raise_readByte (s : State) (e : Event) (a : Word) : (s.raise e).readByte a = s.readByte a := rfl
@[simp] theorem State.present_readByte (s : State) (pc a : Word) : (s.present pc).readByte a = s.readByte a := rfl
@[simp] theorem State.load_readByte (s : State) (word a : Word) : (s.load word).readByte a = s.readByte a := rfl
@[simp] theorem State.present_fetch (s : State) (pc a : Word) : (s.present pc).fetch a = s.fetch a := rfl
@[simp] theorem State.raise_fetch (s : State) (e : Event) (a : Word) : (s.raise e).fetch a = s.fetch a := rfl
@[simp] theorem State.withMode_fetch (s : State) (i f : Bool) (m : BitVec 5) (a : Word) :
    (s.withMode i f m).fetch a = s.fetch a := rfl

/-- Presenting the address a running driver already stands at changes nothing. -/
theorem State.present_self (s : State) (h : s.event = .evNone) : s.present s.pc = s := by
  cases s; simp_all [State.present]

/-! ### What the two ways to retire and the report do, said once -/

/-- `writeResult` retires with exactly one register written. -/
theorem State.writeResult_frame (s : State) (rd : RegIdx) (out : Word × StatusRegister)
    (h : out.2.i = s.sr.i ∧ out.2.f = s.sr.f ∧ out.2.w = s.sr.w ∧ out.2.m = s.sr.m) :
    (s.writeResult rd out).x rd = out.1 ∧ SameRegsBut rd s (s.writeResult rd out) ∧ Retired s (s.writeResult rd out) := by
  refine ⟨by simp, fun j hj => by simp [hj], h, fun a => rfl, rfl, rfl⟩

/-- `writeFlags` retires with no register written. -/
theorem State.writeFlags_frame (s : State) (out : Word × StatusRegister)
    (h : out.2.i = s.sr.i ∧ out.2.f = s.sr.f ∧ out.2.w = s.sr.w ∧ out.2.m = s.sr.m) :
    SameRegs s (s.writeFlags out) ∧ Retired s (s.writeFlags out) :=
  ⟨fun _ => rfl, h, fun _ => rfl, rfl, rfl⟩

/-- `raise` reports and writes nothing. -/
theorem State.raise_reportedOnly (s : State) (e : Event) : ReportedOnly e s (s.raise e) :=
  ⟨rfl, fun _ => rfl, rfl, fun _ => rfl, rfl⟩

/-! ### The reference driver -/

@[simp] theorem State.advance_none (s : State) (h : s.event = .evNone) : s.advance = { s with pc := s.pc + 2 } := by
  simp [State.advance, h]

theorem State.advance_event (s : State) (h : s.event ≠ .evNone) : s.advance = s := by
  unfold State.advance
  split
  · contradiction
  · rfl

/-- The driver's move touches the address alone. -/
theorem State.advance_frame (s : State) :
    s.advance.regs = s.regs ∧ s.advance.sr = s.sr ∧ s.advance.mem = s.mem ∧ s.advance.event = s.event := by
  unfold State.advance
  split <;> simp_all

/-- A run that has ended answers no next state. -/
theorem Event.ended_not_next (e : Event) (r : Result) (h : e.ended = some r) (u : State) : r ≠ .next u := by
  cases e <;> simp [Event.ended] at h <;> subst h <;> simp

/-- A running step is the block's step and the driver's move. -/
theorem step_running (s : State) (h : Running s) : step s = advanceResult (exec (decodeWord (s.fetch s.pc)) s) := by
  simp [step, blockStep, h.1, Event.ended, State.wideRefusal, h.2, State.present_self s h.1]

/-- A step that answers a next state was a running one. -/
theorem running_of_step (s t : State) (h : step s = .next t) : Running s := by
  unfold step at h
  split at h
  · next r hr => exact absurd h (Event.ended_not_next _ _ hr t)
  · next hn =>
    refine ⟨by cases he : s.event <;> simp [he, Event.ended] at hn ⊢, ?_⟩
    by_contra hw
    simp [blockStep, State.wideRefusal, Bool.eq_true_of_not_eq_false hw, advanceResult] at h

end Sys2Proof.Machine
end

