-- ==== Sys2Proof/Laws/Flags.lean ====
section
/-! SUPPORT. The datapath functions: what each leaves of the status register, and the sums behind `AddC` and `SubC`. -/

namespace Sys2Proof.Machine

/-- The result and the status register come from these operations with I, F, W and the mode as they were (R34). -/
def KeepsControl (sr : StatusRegister) (out : Word × StatusRegister) : Prop :=
  out.2.i = sr.i ∧ out.2.f = sr.f ∧ out.2.w = sr.w ∧ out.2.m = sr.m

theorem shiftOut_control (sr : StatusRegister) (out : Word × Bool) : KeepsControl sr (shiftOut sr out) :=
  ⟨rfl, rfl, rfl, rfl⟩
theorem addC_control (sr : StatusRegister) (a b : Word) (cin : Bool) : KeepsControl sr (addC sr a b cin) :=
  ⟨rfl, rfl, rfl, rfl⟩
theorem subC_control (sr : StatusRegister) (a b : Word) (cin : Bool) : KeepsControl sr (subC sr a b cin) :=
  ⟨rfl, rfl, rfl, rfl⟩
theorem logicOut_control (sr : StatusRegister) (r : Word) : KeepsControl sr (logicOut sr r) := ⟨rfl, rfl, rfl, rfl⟩
theorem moveOut_control (sr : StatusRegister) (imm8 : BitVec 8) : KeepsControl sr (moveOut sr imm8) :=
  ⟨rfl, rfl, rfl, rfl⟩
theorem negOut_control (sr : StatusRegister) (v : Word) : KeepsControl sr (negOut sr v) := ⟨rfl, rfl, rfl, rfl⟩
theorem mulOut_control (sr : StatusRegister) (a b : Word) : KeepsControl sr (mulOut sr a b) := ⟨rfl, rfl, rfl, rfl⟩

@[simp] theorem shiftOut_fst (sr : StatusRegister) (out : Word × Bool) : (shiftOut sr out).1 = out.1 := rfl
@[simp] theorem shiftOut_c (sr : StatusRegister) (out : Word × Bool) : (shiftOut sr out).2.c = out.2 := rfl
@[simp] theorem shiftOut_v (sr : StatusRegister) (out : Word × Bool) : (shiftOut sr out).2.v = sr.v := rfl
@[simp] theorem shiftOut_n (sr : StatusRegister) (out : Word × Bool) : (shiftOut sr out).2.n = out.1.getLsbD 31 := rfl
@[simp] theorem shiftOut_z (sr : StatusRegister) (out : Word × Bool) : (shiftOut sr out).2.z = (out.1 == 0#32) := rfl
@[simp] theorem logicOut_fst (sr : StatusRegister) (r : Word) : (logicOut sr r).1 = r := rfl
@[simp] theorem logicOut_c (sr : StatusRegister) (r : Word) : (logicOut sr r).2.c = sr.c := rfl
@[simp] theorem logicOut_v (sr : StatusRegister) (r : Word) : (logicOut sr r).2.v = sr.v := rfl
@[simp] theorem logicOut_n (sr : StatusRegister) (r : Word) : (logicOut sr r).2.n = r.getLsbD 31 := rfl
@[simp] theorem logicOut_z (sr : StatusRegister) (r : Word) : (logicOut sr r).2.z = (r == 0#32) := rfl

/-- The 33-bit sum as a number: it never wraps. -/
theorem sum33_toNat (a b : Word) (cin : Bool) : (sum33 a b cin).toNat = a.toNat + b.toNat + cin.toNat := by
  have ha := a.isLt
  have hb := b.isLt
  have hc : cin.toNat ≤ 1 := by cases cin <;> decide
  simp only [sum33, BitVec.toNat_add, BitVec.toNat_setWidth, BitVec.toNat_ofBool]
  omega

/-- The low word of the 33-bit sum. -/
theorem sum33_low (a b : Word) (cin : Bool) :
    ((sum33 a b cin).extractLsb' 0 32).toNat = (a.toNat + b.toNat + cin.toNat) % 2 ^ 32 := by
  simp [BitVec.extractLsb'_toNat, sum33_toNat]

/-- The top bit of the 33-bit sum. -/
theorem sum33_carry (a b : Word) (cin : Bool) :
    (sum33 a b cin).getLsbD 32 = decide (2 ^ 32 ≤ a.toNat + b.toNat + cin.toNat) := by
  have ha := a.isLt
  have hb := b.isLt
  have hc : cin.toNat ≤ 1 := by cases cin <;> decide
  rw [BitVec.getLsbD, sum33_toNat, Nat.testBit_eq_decide_div_mod_eq]
  apply decide_eq_decide.mpr
  omega

/-- Bit 31 says a word read as signed is negative (R10). -/
theorem getLsbD_31_eq_neg (v : Word) : v.getLsbD 31 = decide (v.toInt < 0) := by
  rw [show v.getLsbD 31 = v.msb by simp [BitVec.msb_eq_getLsbD_last], BitVec.msb_eq_toInt]

end Sys2Proof.Machine
end

