-- ==== Sys2Proof/Laws/Exec.lean ====
section
/-! SUPPORT. What executing an instruction can do, said once: it always answers a next state, and that state is the old one
with one register and the status register written, or with the status register written, or with an event reported. -/

namespace Sys2Proof.Machine

/-- The three shapes of an execution. -/
inductive ExecShape (i : Instr) (s : State) : State → Prop where
  /-- an implemented instruction with a destination register -/
  | result (rd : RegIdx) (out : Word × StatusRegister) (hw : regWritten i = some rd)
      (hi : i.target.isImplemented = true) (hc : KeepsControl s.sr out) : ExecShape i s (s.writeResult rd out)
  /-- an implemented instruction that writes flags only -/
  | flags (out : Word × StatusRegister) (hw : regWritten i = none)
      (hi : i.target.isImplemented = true) (hc : KeepsControl s.sr out) : ExecShape i s (s.writeFlags out)
  /-- a target that reports its event and writes nothing -/
  | report (e : Event) (hw : regWritten i = none) (hi : i.target.isImplemented = false)
      (he : (i.target.isUndefined = true ∧ e = .evUndefined (encode i) s.pc) ∨
        (i.target = .swi ∧ e = .evSwi (encode i) s.pc) ∨
        (i.target.isStub = true ∧ e = .evUnimplemented i.target (encode i) s.pc)) : ExecShape i s (s.raise e)

/-- Every instruction answers a next state of one of the three shapes. -/
theorem exec_shape (i : Instr) (s : State) : ∃ t, exec i s = .next t ∧ ExecShape i s t := by
  cases i
  case cmpImm8 => exact ⟨_, rfl, .flags _ rfl rfl ⟨rfl, rfl, rfl, rfl⟩⟩
  case aluTst => exact ⟨_, rfl, .flags _ rfl rfl ⟨rfl, rfl, rfl, rfl⟩⟩
  case aluCmp => exact ⟨_, rfl, .flags _ rfl rfl ⟨rfl, rfl, rfl, rfl⟩⟩
  case aluCmn => exact ⟨_, rfl, .flags _ rfl rfl ⟨rfl, rfl, rfl, rfl⟩⟩
  case undef16 => exact ⟨_, rfl, .report _ rfl rfl (.inl ⟨rfl, rfl⟩)⟩
  case undefined => exact ⟨_, rfl, .report _ rfl rfl (.inl ⟨rfl, rfl⟩)⟩
  case swi => exact ⟨_, rfl, .report _ rfl rfl (.inr (.inl ⟨rfl, rfl⟩))⟩
  all_goals first
    | exact ⟨_, rfl, .result _ _ rfl rfl ⟨rfl, rfl, rfl, rfl⟩⟩
    | exact ⟨_, rfl, .report _ rfl rfl (.inr (.inr ⟨rfl, rfl⟩))⟩

/-- The classes of a target exclude each other (R107, R159): stub, undefined, software interrupt, implemented. -/
theorem target_classes (g : Target) :
    (g.isStub = true → g.isUndefined = false ∧ g ≠ .swi ∧ g.isImplemented = false) ∧
    (g.isUndefined = true → g ≠ .swi ∧ g.isImplemented = false) ∧ (g = .swi → g.isImplemented = false) := by
  cases g <;> decide

/-- A next state of an execution has one of the three shapes. -/
theorem shape_of_exec (i : Instr) (s t : State) (h : exec i s = .next t) : ExecShape i s t := by
  obtain ⟨u, hu, hs⟩ := exec_shape i s
  rw [h] at hu
  cases hu
  exact hs

/-- A step that answers a next state executed the instruction at `pc`, and then the driver moved. -/
theorem step_cases (s t : State) (h : step s = .next t) :
    Running s ∧ ∃ u, ExecShape (decodeWord (s.fetch s.pc)) s u ∧ t = u.advance := by
  have hr := running_of_step s t h
  obtain ⟨u, hu, hs⟩ := exec_shape (decodeWord (s.fetch s.pc)) s
  rw [step_running s hr, hu, advanceResult] at h
  injection h with h
  exact ⟨hr, u, hs, h.symm⟩

end Sys2Proof.Machine
end

