-- ==== Sys2Proof/Laws/Memory.lean ====
section
/-! SUPPORT. Memory: reads after writes, and that every operation keeps the canonical form. -/

namespace Sys2Proof.Machine

@[simp] theorem Memory.read_nil (k : Nat) : Memory.read [] k = Config.unlistedByte := rfl

@[simp] theorem Memory.read_cons (a k : Nat) (b : Byte) (rest : Memory) :
    Memory.read ((a, b) :: rest) k = if a = k then b else Memory.read rest k := rfl

/-- A canonical tail from `lo` on lists no address below `lo`. -/
theorem Memory.read_below (m : Memory) (lo k : Nat) (h : Memory.wfFrom lo m = true) (hk : k < lo) :
    Memory.read m k = Config.unlistedByte := by
  induction m generalizing lo with
  | nil => rfl
  | cons cell rest ih =>
    obtain ⟨a, b⟩ := cell
    simp only [Memory.wfFrom, Bool.and_eq_true, decide_eq_true_eq] at h
    rw [Memory.read_cons, if_neg (by omega)]
    exact ih (a + 1) h.2 (by omega)

/-- The canonical form from a higher bound is one from a lower bound. -/
theorem Memory.wfFrom_mono (m : Memory) (lo lo' : Nat) (h : Memory.wfFrom lo m = true) (hl : lo' ≤ lo) :
    Memory.wfFrom lo' m = true := by
  cases m with
  | nil => rfl
  | cons cell rest =>
    obtain ⟨a, b⟩ := cell
    simp only [Memory.wfFrom, Bool.and_eq_true, decide_eq_true_eq] at h ⊢
    exact ⟨⟨⟨by omega, h.1.1.2⟩, h.1.2⟩, h.2⟩

theorem Memory.consCell_wf (k lo : Nat) (v : Byte) (rest : Memory) (h : Memory.wfFrom (k + 1) rest = true)
    (hk : k < 2 ^ 32) (hl : lo ≤ k) : Memory.wfFrom lo (Memory.consCell k v rest) = true := by
  unfold Memory.consCell
  split
  · exact Memory.wfFrom_mono rest (k + 1) lo h (by omega)
  · next hv => simp [Memory.wfFrom, hl, hv, h]; omega

/-- Reading the written address. -/
theorem Memory.consCell_read_same (k : Nat) (v : Byte) (rest : Memory) (h : Memory.wfFrom (k + 1) rest = true) :
    Memory.read (Memory.consCell k v rest) k = v := by
  unfold Memory.consCell
  split
  · next hv => rw [Memory.read_below rest (k + 1) k h (by omega), hv]
  · simp

theorem Memory.consCell_read_other (k k' : Nat) (v : Byte) (rest : Memory) (h : k' ≠ k) :
    Memory.read (Memory.consCell k v rest) k' = Memory.read rest k' := by
  unfold Memory.consCell
  split
  · rfl
  · rw [Memory.read_cons, if_neg (Ne.symm h)]

theorem Memory.write_wfFrom (m : Memory) (lo k : Nat) (v : Byte) (h : Memory.wfFrom lo m = true) (hk : k < 2 ^ 32)
    (hl : lo ≤ k) : Memory.wfFrom lo (Memory.write m k v) = true := by
  induction m generalizing lo with
  | nil => exact Memory.consCell_wf k lo v [] rfl hk hl
  | cons cell rest ih =>
    obtain ⟨a, b⟩ := cell
    have h' := h
    simp only [Memory.wfFrom, Bool.and_eq_true, decide_eq_true_eq] at h
    unfold Memory.write
    split
    · simp only [Memory.wfFrom, Bool.and_eq_true, decide_eq_true_eq]
      exact ⟨h.1, ih (a + 1) h.2 (by omega)⟩
    · split
      · next ha => exact Memory.consCell_wf k lo v rest (ha ▸ h.2) hk hl
      · refine Memory.consCell_wf k lo v _ ?_ hk hl
        simp only [Memory.wfFrom, Bool.and_eq_true, decide_eq_true_eq]
        exact ⟨⟨⟨by omega, h.1.1.2⟩, h.1.2⟩, h.2⟩

/-- A write keeps the canonical form. -/
theorem Memory.write_wf (m : Memory) (k : Nat) (v : Byte) (h : Memory.wf m = true) (hk : k < 2 ^ 32) :
    Memory.wf (Memory.write m k v) = true := Memory.write_wfFrom m 0 k v h hk (Nat.zero_le k)

theorem Memory.read_write_same_from (m : Memory) (lo k : Nat) (v : Byte) (h : Memory.wfFrom lo m = true) :
    Memory.read (Memory.write m k v) k = v := by
  induction m generalizing lo with
  | nil => exact Memory.consCell_read_same k v [] rfl
  | cons cell rest ih =>
    obtain ⟨a, b⟩ := cell
    simp only [Memory.wfFrom, Bool.and_eq_true, decide_eq_true_eq] at h
    unfold Memory.write
    split
    · rw [Memory.read_cons, if_neg (by omega)]
      exact ih (a + 1) h.2
    · split
      · next ha => exact Memory.consCell_read_same k v rest (ha ▸ h.2)
      · refine Memory.consCell_read_same k v _ ?_
        simp only [Memory.wfFrom, Bool.and_eq_true, decide_eq_true_eq]
        exact ⟨⟨⟨by omega, h.1.1.2⟩, h.1.2⟩, h.2⟩

/-- A read of the address just written gives the value written. -/
theorem Memory.read_write_same (m : Memory) (k : Nat) (v : Byte) (h : Memory.wf m = true) :
    Memory.read (Memory.write m k v) k = v := Memory.read_write_same_from m 0 k v h

/-- A write leaves every other address alone. -/
theorem Memory.read_write_other (m : Memory) (k k' : Nat) (v : Byte) (h : k' ≠ k) :
    Memory.read (Memory.write m k v) k' = Memory.read m k' := by
  induction m with
  | nil => exact Memory.consCell_read_other k k' v [] h
  | cons cell rest ih =>
    obtain ⟨a, b⟩ := cell
    unfold Memory.write
    split
    · rw [Memory.read_cons, Memory.read_cons, ih]
    · split
      · next ha => rw [Memory.consCell_read_other k k' v rest h, Memory.read_cons, if_neg (by omega)]
      · rw [Memory.consCell_read_other k k' v _ h]

/-- Reset memory is canonical. -/
theorem State.reset_mem_wf : State.reset.mem.wf = true := rfl

/-- `pokeByte` keeps the canonical form: a 32-bit address is below 2^32. -/
theorem State.pokeByte_wf (s : State) (a : Word) (b : Byte) (h : s.mem.wf = true) : (s.pokeByte a b).mem.wf = true :=
  Memory.write_wf s.mem a.toNat b h a.isLt

theorem State.pokeByte_readByte_same (s : State) (a : Word) (b : Byte) (h : s.mem.wf = true) :
    (s.pokeByte a b).readByte a = b := Memory.read_write_same s.mem a.toNat b h

theorem State.pokeByte_readByte_other (s : State) (a a' : Word) (b : Byte) (h : a' ≠ a) :
    (s.pokeByte a b).readByte a' = s.readByte a' :=
  Memory.read_write_other s.mem a.toNat a'.toNat b (fun e => h (BitVec.eq_of_toNat_eq e))

/-- Placing a word keeps the canonical form. -/
theorem State.placeWord_wf (s : State) (pc : Word) (w : Half) (h : s.mem.wf = true) : (s.placeWord pc w).mem.wf = true :=
  State.pokeByte_wf _ _ _ (State.pokeByte_wf s pc _ h)

/-- Splitting a word into its bytes and joining them gives it back (R60). -/
theorem wordOfBytes_bytes (w : Half) : wordOfBytes (lowByte w) (highByte w) = w := by
  apply BitVec.eq_of_getLsbD_eq
  intro k hk
  simp only [wordOfBytes, lowByte, highByte, BitVec.getLsbD_append, BitVec.getLsbD_extractLsb']
  by_cases h : k < 8
  · simp [h]
  · simp [h, show 8 + (k - 8) = k by omega, show k - 8 < 8 by omega]

/-- A placed word is the word fetched there, for every address (R19, R43). -/
theorem State.placeWord_fetch (s : State) (pc : Word) (w : Half) (h : s.mem.wf = true) :
    (s.placeWord pc w).fetch pc = w := by
  have hne : pc ≠ pc + 1 := by bv_omega
  unfold State.fetch State.placeWord
  rw [State.pokeByte_readByte_same _ _ _ (State.pokeByte_wf s pc _ h), State.pokeByte_readByte_other _ _ _ _ hne,
    State.pokeByte_readByte_same s pc _ h, wordOfBytes_bytes]

end Sys2Proof.Machine
end

