-- ==== Sys2Proof/Laws/PerInstr.lean ====
section
/-! SUPPORT. One family of statements about the instruction as syntax: the word of a well-formed instruction matches a row of
the opcode table that bears its own target (R107). -/

namespace Sys2Proof.Laws.TableRow

/-- The encoding of a well-formed instruction matches a row of its own target. -/
def Statement (i : Instr) : Prop :=
  i.wf = true → ∃ r ∈ opcodeTable, r.target = i.target ∧ r.holds (encode i) = true

/-- A word matches a row when every bit under the row's mask is the pattern's. -/
theorem holds_of_bits (r : Row) (w : Half) (hp : r.pattern &&& r.mask = r.pattern)
    (h : ∀ k, k < 16 → r.mask.getLsbD k = true → w.getLsbD k = r.pattern.getLsbD k) : r.holds w = true := by
  have : w &&& r.mask = r.pattern := by
    rw [← hp]
    apply BitVec.eq_of_getLsbD_eq
    intro k hk
    rw [BitVec.getLsbD_and, BitVec.getLsbD_and]
    cases hm : r.mask.getLsbD k
    · simp
    · simp [h k hk hm]
  simp [Row.holds, this]

/-- An instruction's row, from its place in the table, its target and its bits. -/
theorem row_of {i : Instr} (r : Row) (hr : r ∈ opcodeTable) (ht : r.target = i.target)
    (hp : r.pattern &&& r.mask = r.pattern)
    (h : ∀ k, k < 16 → r.mask.getLsbD k = true → (encode i).getLsbD k = r.pattern.getLsbD k) :
    ∃ r ∈ opcodeTable, r.target = i.target ∧ r.holds (encode i) = true :=
  ⟨r, hr, ht, holds_of_bits r _ hp h⟩

theorem lslImm (imm5 : BitVec 5) (rs : RegIdx) (rd : RegIdx) : Statement (.lslImm imm5 rs rd) := fun _ =>
  row_of ⟨.lslImm, 0xF800#16, 0x0000#16⟩ (by decide) rfl (by decide) (by
    intro k hk hm
    simp only [encode, BitVec.getLsbD_append]
    interval_cases k <;> simp_all)

theorem lsrImm (imm5 : BitVec 5) (rs : RegIdx) (rd : RegIdx) : Statement (.lsrImm imm5 rs rd) := fun _ =>
  row_of ⟨.lsrImm, 0xF800#16, 0x0800#16⟩ (by decide) rfl (by decide) (by
    intro k hk hm
    simp only [encode, BitVec.getLsbD_append]
    interval_cases k <;> simp_all)

theorem asrImm (imm5 : BitVec 5) (rs : RegIdx) (rd : RegIdx) : Statement (.asrImm imm5 rs rd) := fun _ =>
  row_of ⟨.asrImm, 0xF800#16, 0x1000#16⟩ (by decide) rfl (by decide) (by
    intro k hk hm
    simp only [encode, BitVec.getLsbD_append]
    interval_cases k <;> simp_all)

theorem addReg (rn : RegIdx) (rs : RegIdx) (rd : RegIdx) : Statement (.addReg rn rs rd) := fun _ =>
  row_of ⟨.addReg, 0xFE00#16, 0x1800#16⟩ (by decide) rfl (by decide) (by
    intro k hk hm
    simp only [encode, BitVec.getLsbD_append]
    interval_cases k <;> simp_all)

theorem subReg (rn : RegIdx) (rs : RegIdx) (rd : RegIdx) : Statement (.subReg rn rs rd) := fun _ =>
  row_of ⟨.subReg, 0xFE00#16, 0x1A00#16⟩ (by decide) rfl (by decide) (by
    intro k hk hm
    simp only [encode, BitVec.getLsbD_append]
    interval_cases k <;> simp_all)

theorem addImm3 (imm3 : BitVec 3) (rs : RegIdx) (rd : RegIdx) : Statement (.addImm3 imm3 rs rd) := fun _ =>
  row_of ⟨.addImm3, 0xFE00#16, 0x1C00#16⟩ (by decide) rfl (by decide) (by
    intro k hk hm
    simp only [encode, BitVec.getLsbD_append]
    interval_cases k <;> simp_all)

theorem subImm3 (imm3 : BitVec 3) (rs : RegIdx) (rd : RegIdx) : Statement (.subImm3 imm3 rs rd) := fun _ =>
  row_of ⟨.subImm3, 0xFE00#16, 0x1E00#16⟩ (by decide) rfl (by decide) (by
    intro k hk hm
    simp only [encode, BitVec.getLsbD_append]
    interval_cases k <;> simp_all)

theorem movImm8 (rd : RegIdx) (imm8 : BitVec 8) : Statement (.movImm8 rd imm8) := fun _ =>
  row_of ⟨.movImm8, 0xF800#16, 0x2000#16⟩ (by decide) rfl (by decide) (by
    intro k hk hm
    simp only [encode, BitVec.getLsbD_append]
    interval_cases k <;> simp_all)

theorem cmpImm8 (rd : RegIdx) (imm8 : BitVec 8) : Statement (.cmpImm8 rd imm8) := fun _ =>
  row_of ⟨.cmpImm8, 0xF800#16, 0x2800#16⟩ (by decide) rfl (by decide) (by
    intro k hk hm
    simp only [encode, BitVec.getLsbD_append]
    interval_cases k <;> simp_all)

theorem addImm8 (rd : RegIdx) (imm8 : BitVec 8) : Statement (.addImm8 rd imm8) := fun _ =>
  row_of ⟨.addImm8, 0xF800#16, 0x3000#16⟩ (by decide) rfl (by decide) (by
    intro k hk hm
    simp only [encode, BitVec.getLsbD_append]
    interval_cases k <;> simp_all)

theorem subImm8 (rd : RegIdx) (imm8 : BitVec 8) : Statement (.subImm8 rd imm8) := fun _ =>
  row_of ⟨.subImm8, 0xF800#16, 0x3800#16⟩ (by decide) rfl (by decide) (by
    intro k hk hm
    simp only [encode, BitVec.getLsbD_append]
    interval_cases k <;> simp_all)

theorem aluAnd (rs : RegIdx) (rd : RegIdx) : Statement (.aluAnd rs rd) := fun _ =>
  row_of ⟨.aluAnd, 0xFFC0#16, 0x4000#16⟩ (by decide) rfl (by decide) (by
    intro k hk hm
    simp only [encode, BitVec.getLsbD_append]
    interval_cases k <;> simp_all)

theorem aluEor (rs : RegIdx) (rd : RegIdx) : Statement (.aluEor rs rd) := fun _ =>
  row_of ⟨.aluEor, 0xFFC0#16, 0x4040#16⟩ (by decide) rfl (by decide) (by
    intro k hk hm
    simp only [encode, BitVec.getLsbD_append]
    interval_cases k <;> simp_all)

theorem aluLsl (rs : RegIdx) (rd : RegIdx) : Statement (.aluLsl rs rd) := fun _ =>
  row_of ⟨.aluLsl, 0xFFC0#16, 0x4080#16⟩ (by decide) rfl (by decide) (by
    intro k hk hm
    simp only [encode, BitVec.getLsbD_append]
    interval_cases k <;> simp_all)

theorem aluLsr (rs : RegIdx) (rd : RegIdx) : Statement (.aluLsr rs rd) := fun _ =>
  row_of ⟨.aluLsr, 0xFFC0#16, 0x40C0#16⟩ (by decide) rfl (by decide) (by
    intro k hk hm
    simp only [encode, BitVec.getLsbD_append]
    interval_cases k <;> simp_all)

theorem aluAsr (rs : RegIdx) (rd : RegIdx) : Statement (.aluAsr rs rd) := fun _ =>
  row_of ⟨.aluAsr, 0xFFC0#16, 0x4100#16⟩ (by decide) rfl (by decide) (by
    intro k hk hm
    simp only [encode, BitVec.getLsbD_append]
    interval_cases k <;> simp_all)

theorem aluAdc (rs : RegIdx) (rd : RegIdx) : Statement (.aluAdc rs rd) := fun _ =>
  row_of ⟨.aluAdc, 0xFFC0#16, 0x4140#16⟩ (by decide) rfl (by decide) (by
    intro k hk hm
    simp only [encode, BitVec.getLsbD_append]
    interval_cases k <;> simp_all)

theorem aluSbc (rs : RegIdx) (rd : RegIdx) : Statement (.aluSbc rs rd) := fun _ =>
  row_of ⟨.aluSbc, 0xFFC0#16, 0x4180#16⟩ (by decide) rfl (by decide) (by
    intro k hk hm
    simp only [encode, BitVec.getLsbD_append]
    interval_cases k <;> simp_all)

theorem aluRor (rs : RegIdx) (rd : RegIdx) : Statement (.aluRor rs rd) := fun _ =>
  row_of ⟨.aluRor, 0xFFC0#16, 0x41C0#16⟩ (by decide) rfl (by decide) (by
    intro k hk hm
    simp only [encode, BitVec.getLsbD_append]
    interval_cases k <;> simp_all)

theorem aluTst (rs : RegIdx) (rd : RegIdx) : Statement (.aluTst rs rd) := fun _ =>
  row_of ⟨.aluTst, 0xFFC0#16, 0x4200#16⟩ (by decide) rfl (by decide) (by
    intro k hk hm
    simp only [encode, BitVec.getLsbD_append]
    interval_cases k <;> simp_all)

theorem aluNeg (rs : RegIdx) (rd : RegIdx) : Statement (.aluNeg rs rd) := fun _ =>
  row_of ⟨.aluNeg, 0xFFC0#16, 0x4240#16⟩ (by decide) rfl (by decide) (by
    intro k hk hm
    simp only [encode, BitVec.getLsbD_append]
    interval_cases k <;> simp_all)

theorem aluCmp (rs : RegIdx) (rd : RegIdx) : Statement (.aluCmp rs rd) := fun _ =>
  row_of ⟨.aluCmp, 0xFFC0#16, 0x4280#16⟩ (by decide) rfl (by decide) (by
    intro k hk hm
    simp only [encode, BitVec.getLsbD_append]
    interval_cases k <;> simp_all)

theorem aluCmn (rs : RegIdx) (rd : RegIdx) : Statement (.aluCmn rs rd) := fun _ =>
  row_of ⟨.aluCmn, 0xFFC0#16, 0x42C0#16⟩ (by decide) rfl (by decide) (by
    intro k hk hm
    simp only [encode, BitVec.getLsbD_append]
    interval_cases k <;> simp_all)

theorem aluOrr (rs : RegIdx) (rd : RegIdx) : Statement (.aluOrr rs rd) := fun _ =>
  row_of ⟨.aluOrr, 0xFFC0#16, 0x4300#16⟩ (by decide) rfl (by decide) (by
    intro k hk hm
    simp only [encode, BitVec.getLsbD_append]
    interval_cases k <;> simp_all)

theorem aluMul (rs : RegIdx) (rd : RegIdx) : Statement (.aluMul rs rd) := fun _ =>
  row_of ⟨.aluMul, 0xFFC0#16, 0x4340#16⟩ (by decide) rfl (by decide) (by
    intro k hk hm
    simp only [encode, BitVec.getLsbD_append]
    interval_cases k <;> simp_all)

theorem aluBic (rs : RegIdx) (rd : RegIdx) : Statement (.aluBic rs rd) := fun _ =>
  row_of ⟨.aluBic, 0xFFC0#16, 0x4380#16⟩ (by decide) rfl (by decide) (by
    intro k hk hm
    simp only [encode, BitVec.getLsbD_append]
    interval_cases k <;> simp_all)

theorem aluMvn (rs : RegIdx) (rd : RegIdx) : Statement (.aluMvn rs rd) := fun _ =>
  row_of ⟨.aluMvn, 0xFFC0#16, 0x43C0#16⟩ (by decide) rfl (by decide) (by
    intro k hk hm
    simp only [encode, BitVec.getLsbD_append]
    interval_cases k <;> simp_all)

theorem hiRegOp (payload : BitVec 10) : Statement (.hiRegOp payload) := fun _ =>
  row_of ⟨.hiRegOp, 0xFC00#16, 0x4400#16⟩ (by decide) rfl (by decide) (by
    intro k hk hm
    simp only [encode, BitVec.getLsbD_append]
    interval_cases k <;> simp_all)

theorem ldrPc (payload : BitVec 11) : Statement (.ldrPc payload) := fun _ =>
  row_of ⟨.ldrPc, 0xF800#16, 0x4800#16⟩ (by decide) rfl (by decide) (by
    intro k hk hm
    simp only [encode, BitVec.getLsbD_append]
    interval_cases k <;> simp_all)

theorem strReg (payload : BitVec 9) : Statement (.strReg payload) := fun _ =>
  row_of ⟨.strReg, 0xFE00#16, 0x5000#16⟩ (by decide) rfl (by decide) (by
    intro k hk hm
    simp only [encode, BitVec.getLsbD_append]
    interval_cases k <;> simp_all)

theorem strhReg (payload : BitVec 9) : Statement (.strhReg payload) := fun _ =>
  row_of ⟨.strhReg, 0xFE00#16, 0x5200#16⟩ (by decide) rfl (by decide) (by
    intro k hk hm
    simp only [encode, BitVec.getLsbD_append]
    interval_cases k <;> simp_all)

theorem strbReg (payload : BitVec 9) : Statement (.strbReg payload) := fun _ =>
  row_of ⟨.strbReg, 0xFE00#16, 0x5400#16⟩ (by decide) rfl (by decide) (by
    intro k hk hm
    simp only [encode, BitVec.getLsbD_append]
    interval_cases k <;> simp_all)

theorem ldsbReg (payload : BitVec 9) : Statement (.ldsbReg payload) := fun _ =>
  row_of ⟨.ldsbReg, 0xFE00#16, 0x5600#16⟩ (by decide) rfl (by decide) (by
    intro k hk hm
    simp only [encode, BitVec.getLsbD_append]
    interval_cases k <;> simp_all)

theorem ldrReg (payload : BitVec 9) : Statement (.ldrReg payload) := fun _ =>
  row_of ⟨.ldrReg, 0xFE00#16, 0x5800#16⟩ (by decide) rfl (by decide) (by
    intro k hk hm
    simp only [encode, BitVec.getLsbD_append]
    interval_cases k <;> simp_all)

theorem ldrhReg (payload : BitVec 9) : Statement (.ldrhReg payload) := fun _ =>
  row_of ⟨.ldrhReg, 0xFE00#16, 0x5A00#16⟩ (by decide) rfl (by decide) (by
    intro k hk hm
    simp only [encode, BitVec.getLsbD_append]
    interval_cases k <;> simp_all)

theorem ldrbReg (payload : BitVec 9) : Statement (.ldrbReg payload) := fun _ =>
  row_of ⟨.ldrbReg, 0xFE00#16, 0x5C00#16⟩ (by decide) rfl (by decide) (by
    intro k hk hm
    simp only [encode, BitVec.getLsbD_append]
    interval_cases k <;> simp_all)

theorem ldshReg (payload : BitVec 9) : Statement (.ldshReg payload) := fun _ =>
  row_of ⟨.ldshReg, 0xFE00#16, 0x5E00#16⟩ (by decide) rfl (by decide) (by
    intro k hk hm
    simp only [encode, BitVec.getLsbD_append]
    interval_cases k <;> simp_all)

theorem strImm (payload : BitVec 11) : Statement (.strImm payload) := fun _ =>
  row_of ⟨.strImm, 0xF800#16, 0x6000#16⟩ (by decide) rfl (by decide) (by
    intro k hk hm
    simp only [encode, BitVec.getLsbD_append]
    interval_cases k <;> simp_all)

theorem ldrImm (payload : BitVec 11) : Statement (.ldrImm payload) := fun _ =>
  row_of ⟨.ldrImm, 0xF800#16, 0x6800#16⟩ (by decide) rfl (by decide) (by
    intro k hk hm
    simp only [encode, BitVec.getLsbD_append]
    interval_cases k <;> simp_all)

theorem strbImm (payload : BitVec 11) : Statement (.strbImm payload) := fun _ =>
  row_of ⟨.strbImm, 0xF800#16, 0x7000#16⟩ (by decide) rfl (by decide) (by
    intro k hk hm
    simp only [encode, BitVec.getLsbD_append]
    interval_cases k <;> simp_all)

theorem ldrbImm (payload : BitVec 11) : Statement (.ldrbImm payload) := fun _ =>
  row_of ⟨.ldrbImm, 0xF800#16, 0x7800#16⟩ (by decide) rfl (by decide) (by
    intro k hk hm
    simp only [encode, BitVec.getLsbD_append]
    interval_cases k <;> simp_all)

theorem strhImm (payload : BitVec 11) : Statement (.strhImm payload) := fun _ =>
  row_of ⟨.strhImm, 0xF800#16, 0x8000#16⟩ (by decide) rfl (by decide) (by
    intro k hk hm
    simp only [encode, BitVec.getLsbD_append]
    interval_cases k <;> simp_all)

theorem ldrhImm (payload : BitVec 11) : Statement (.ldrhImm payload) := fun _ =>
  row_of ⟨.ldrhImm, 0xF800#16, 0x8800#16⟩ (by decide) rfl (by decide) (by
    intro k hk hm
    simp only [encode, BitVec.getLsbD_append]
    interval_cases k <;> simp_all)

theorem strSp (payload : BitVec 11) : Statement (.strSp payload) := fun _ =>
  row_of ⟨.strSp, 0xF800#16, 0x9000#16⟩ (by decide) rfl (by decide) (by
    intro k hk hm
    simp only [encode, BitVec.getLsbD_append]
    interval_cases k <;> simp_all)

theorem ldrSp (payload : BitVec 11) : Statement (.ldrSp payload) := fun _ =>
  row_of ⟨.ldrSp, 0xF800#16, 0x9800#16⟩ (by decide) rfl (by decide) (by
    intro k hk hm
    simp only [encode, BitVec.getLsbD_append]
    interval_cases k <;> simp_all)

theorem loadAddress14 (payload : BitVec 11) : Statement (.loadAddress14 payload) := fun _ =>
  row_of ⟨.loadAddress14, 0xF800#16, 0xA000#16⟩ (by decide) rfl (by decide) (by
    intro k hk hm
    simp only [encode, BitVec.getLsbD_append]
    interval_cases k <;> simp_all)

theorem loadAddress15 (payload : BitVec 11) : Statement (.loadAddress15 payload) := fun _ =>
  row_of ⟨.loadAddress15, 0xF800#16, 0xA800#16⟩ (by decide) rfl (by decide) (by
    intro k hk hm
    simp only [encode, BitVec.getLsbD_append]
    interval_cases k <;> simp_all)

theorem addSpOffset (payload : BitVec 8) : Statement (.addSpOffset payload) := fun _ =>
  row_of ⟨.addSpOffset, 0xFF00#16, 0xB000#16⟩ (by decide) rfl (by decide) (by
    intro k hk hm
    simp only [encode, BitVec.getLsbD_append, Config.sel16AddSpValue]
    interval_cases k <;> simp_all)

theorem push (payload : BitVec 9) : Statement (.push payload) := fun _ =>
  row_of ⟨.push, 0xFE00#16, 0xB400#16⟩ (by decide) rfl (by decide) (by
    intro k hk hm
    simp only [encode, BitVec.getLsbD_append, Config.sel16PushValue]
    interval_cases k <;> simp_all)

theorem pop (payload : BitVec 11) : Statement (.pop payload) := fun _ =>
  row_of ⟨.pop, 0xF800#16, 0xB800#16⟩ (by decide) rfl (by decide) (by
    intro k hk hm
    simp only [encode, BitVec.getLsbD_append]
    interval_cases k <;> simp_all)

theorem stmia (payload : BitVec 11) : Statement (.stmia payload) := fun _ =>
  row_of ⟨.stmia, 0xF800#16, 0xC000#16⟩ (by decide) rfl (by decide) (by
    intro k hk hm
    simp only [encode, BitVec.getLsbD_append]
    interval_cases k <;> simp_all)

theorem ldmia (payload : BitVec 11) : Statement (.ldmia payload) := fun _ =>
  row_of ⟨.ldmia, 0xF800#16, 0xC800#16⟩ (by decide) rfl (by decide) (by
    intro k hk hm
    simp only [encode, BitVec.getLsbD_append]
    interval_cases k <;> simp_all)

theorem swi (payload : BitVec 8) : Statement (.swi payload) := fun _ =>
  row_of ⟨.swi, 0xFF00#16, 0xDF00#16⟩ (by decide) rfl (by decide) (by
    intro k hk hm
    simp only [encode, BitVec.getLsbD_append]
    interval_cases k <;> simp_all)

theorem b (payload : BitVec 11) : Statement (.b payload) := fun _ =>
  row_of ⟨.b, 0xF800#16, 0xE000#16⟩ (by decide) rfl (by decide) (by
    intro k hk hm
    simp only [encode, BitVec.getLsbD_append]
    interval_cases k <;> simp_all)

theorem undefined (payload : BitVec 11) : Statement (.undefined payload) := fun _ =>
  row_of ⟨.undefined, 0xF800#16, 0xE800#16⟩ (by decide) rfl (by decide) (by
    intro k hk hm
    simp only [encode, BitVec.getLsbD_append]
    interval_cases k <;> simp_all)

theorem blLow (payload : BitVec 11) : Statement (.blLow payload) := fun _ =>
  row_of ⟨.blLow, 0xF800#16, 0xF000#16⟩ (by decide) rfl (by decide) (by
    intro k hk hm
    simp only [encode, BitVec.getLsbD_append]
    interval_cases k <;> simp_all)

theorem blHigh (payload : BitVec 11) : Statement (.blHigh payload) := fun _ =>
  row_of ⟨.blHigh, 0xF800#16, 0xF800#16⟩ (by decide) rfl (by decide) (by
    intro k hk hm
    simp only [encode, BitVec.getLsbD_append]
    interval_cases k <;> simp_all)

/-- The bits of a conditional branch's word, from those of its payload. -/
theorem bCond_row (payload : BitVec 12) (r : Row) (hr : r ∈ opcodeTable) (ht : r.target = .bCond)
    (hp : r.pattern &&& r.mask = r.pattern)
    (h : ∀ k, k < 12 → r.mask.getLsbD k = true → payload.getLsbD k = r.pattern.getLsbD k)
    (h4 : ∀ k, 12 ≤ k → k < 16 → (0xD000#16).getLsbD k = r.pattern.getLsbD k) :
    ∃ r ∈ opcodeTable, r.target = Target.bCond ∧ r.holds (encode (.bCond payload)) = true := by
  refine row_of (i := .bCond payload) r hr ht hp fun k hk hm => ?_
  simp only [encode, BitVec.getLsbD_append]
  by_cases h12 : k < 12
  · rw [← h k h12 hm]; simp [h12]
  · rw [← h4 k (by omega) hk]
    clear h h4 hm
    interval_cases k <;> simp_all

theorem bCond (payload : BitVec 12) : Statement (.bCond payload) := by
  intro hwf
  by_cases h11 : payload.getLsbD 11 = true
  · by_cases h10 : payload.getLsbD 10 = true
    · by_cases h9 : payload.getLsbD 9 = true
      · have h8 : payload.getLsbD 8 = false := by
          by_contra h8
          refine absurd hwf ?_
          have : payload.extractLsb' 8 4 = 0b1111#4 := by
            apply BitVec.eq_of_getLsbD_eq
            intro k hk
            interval_cases k <;> simp_all
          simp [Instr.wf, bCondPayloadOk, this]
        exact bCond_row payload ⟨.bCond, 0xFF00#16, 0xDE00#16⟩ (by decide) rfl (by decide)
          (by intro k hk hm; interval_cases k <;> simp_all) (by decide)
      · exact bCond_row payload ⟨.bCond, 0xFE00#16, 0xDC00#16⟩ (by decide) rfl (by decide)
          (by intro k hk hm; interval_cases k <;> simp_all) (by decide)
    · exact bCond_row payload ⟨.bCond, 0xFC00#16, 0xD800#16⟩ (by decide) rfl (by decide)
        (by intro k hk hm; interval_cases k <;> simp_all) (by decide)
  · exact bCond_row payload ⟨.bCond, 0xF800#16, 0xD000#16⟩ (by decide) rfl (by decide)
      (by intro k hk hm; interval_cases k <;> simp_all) (by decide)

/-- The bits of an unhandled word of selector 0x16, from those of its payload. -/
theorem undef16_row (payload : BitVec 11) (r : Row) (hr : r ∈ opcodeTable) (ht : r.target = .undef16)
    (hp : r.pattern &&& r.mask = r.pattern)
    (h : ∀ k, k < 11 → r.mask.getLsbD k = true → payload.getLsbD k = r.pattern.getLsbD k)
    (h5 : ∀ k, 11 ≤ k → k < 16 → (0xB000#16).getLsbD k = r.pattern.getLsbD k) :
    ∃ r ∈ opcodeTable, r.target = Target.undef16 ∧ r.holds (encode (.undef16 payload)) = true := by
  refine row_of (i := .undef16 payload) r hr ht hp fun k hk hm => ?_
  simp only [encode, BitVec.getLsbD_append]
  by_cases h11 : k < 11
  · rw [← h k h11 hm]; simp [h11]
  · rw [← h5 k (by omega) hk]
    clear h h5 hm
    interval_cases k <;> simp_all

theorem undef16 (payload : BitVec 11) : Statement (.undef16 payload) := by
  intro hwf
  have hs : payload.extractLsb' 8 3 ≠ 0b000#3 ∧ payload.extractLsb' 9 2 ≠ 0b10#2 := by
    simpa [Instr.wf, undef16PayloadOk, Config.sel16AddSpValue, Config.sel16PushValue] using hwf
  by_cases h10 : payload.getLsbD 10 = true
  · have h9 : payload.getLsbD 9 = true := by
      by_contra h9
      refine hs.2 (BitVec.eq_of_getLsbD_eq fun k hk => ?_)
      interval_cases k <;> simp_all
    exact undef16_row payload ⟨.undef16, 0xFE00#16, 0xB600#16⟩ (by decide) rfl (by decide)
      (by intro k hk hm; interval_cases k <;> simp_all) (by decide)
  · by_cases h9 : payload.getLsbD 9 = true
    · exact undef16_row payload ⟨.undef16, 0xFE00#16, 0xB200#16⟩ (by decide) rfl (by decide)
        (by intro k hk hm; interval_cases k <;> simp_all) (by decide)
    · have h8 : payload.getLsbD 8 = true := by
        by_contra h8
        refine hs.1 (BitVec.eq_of_getLsbD_eq fun k hk => ?_)
        interval_cases k <;> simp_all
      exact undef16_row payload ⟨.undef16, 0xFF00#16, 0xB100#16⟩ (by decide) rfl (by decide)
        (by intro k hk hm; interval_cases k <;> simp_all) (by decide)

end Sys2Proof.Laws.TableRow
end

