-- ==== Sys2Proof/Tests/Slice0.lean ====
section
/-! SUPPORT. The model's own tests. Every expected value stands in spec/95_test_vectors.md (the section is named), whose vectors
come from the spec's rules; the witnesses show that the hypotheses of each statement can be met. -/

namespace Sys2Proof.Machine

/-! ### Helpers -/

/-- The next state, if there is one. -/
def nextOf : Result → Option State
  | .next t => some t
  | .fault _ => none
  | .refused _ => none

/-- The junk pattern of spec/95_test_vectors.md section 8 with the listed registers replaced, the last entry winning. -/
def testRegs (l : List (RegIdx × Word)) : Vector Word 8 :=
  l.foldl (fun regs p => setReg regs p.1 p.2) (Vector.replicate 8 0xAAAAAAAA#32)

/-- A running state with the listed registers and the flags N, Z, C, V. -/
def testState (l : List (RegIdx × Word)) (nzcv : BitVec 4) : State :=
  { State.reset with
    regs := testRegs l
    sr := { StatusRegister.reset with
            n := nzcv.getLsbD 3, z := nzcv.getLsbD 2, c := nzcv.getLsbD 1, v := nzcv.getLsbD 0 } }

/-- The flags N, Z, C, V as the spec's four-character string. -/
def nzcv (s : State) : BitVec 4 :=
  BitVec.ofBool s.sr.n ++ BitVec.ofBool s.sr.z ++ BitVec.ofBool s.sr.c ++ BitVec.ofBool s.sr.v

/-- One step over the word, placed at `pc` = 0: the registers, the flags, the next `pc` and the event. -/
def after (w : Half) (l : List (RegIdx × Word)) (flags : BitVec 4) : Option (Vector Word 8 × BitVec 4 × Word × Event) :=
  (nextOf (step ((testState l flags).withFetchWord 16 w.toNat))).map (fun t => (t.regs, nzcv t, t.pc, t.event))

/-- The start state of spec/95_test_vectors.md section 7, at an address, with a word there. -/
def eventState (pc : Word) (w : Half) : State :=
  { State.reset with
    regs := #v[0x11111111#32, 0x22222222#32, 0x33333333#32, 0x44444444#32, 0x55555555#32, 0x66666666#32, 0x77777777#32,
      0x88888888#32]
    sr := { n := true, z := false, c := true, v := false, i := true, f := false, w := false, m := 0x1F#5 }
    pc := pc }.placeWord pc w

/-- The step from that state reports the event and leaves every other field of the state. -/
def reports (pc : Word) (w : Half) (e : Event) : Prop :=
  nextOf (step (eventState pc w)) = some { eventState pc w with event := e }

/-! ### Well-formedness: an ill-formed term for each check -/

/-- Condition field 1111 is the software interrupt (R102). -/
theorem test_bCond_1111_ill_formed : (Instr.bCond 0xF00#12).wf = false ∧ (Instr.bCond 0xEFF#12).wf = true := by decide

/-- An UNDEF_16 payload of the ADD_SP_OFFSET form, and its first good neighbour (R97). -/
theorem test_undef16_addsp_ill_formed : (Instr.undef16 0x0FF#11).wf = false ∧ (Instr.undef16 0x100#11).wf = true := by
  decide

/-- UNDEF_16 payloads of the PUSH form, first and last, and their good neighbours (R97). -/
theorem test_undef16_push_ill_formed :
    (Instr.undef16 0x400#11).wf = false ∧ (Instr.undef16 0x5FF#11).wf = false ∧
    (Instr.undef16 0x3FF#11).wf = true ∧ (Instr.undef16 0x600#11).wf = true := by decide

/-! ### Decoding: for every constructor a word written out bit by bit from its encoding (R62 to R69, R75 to R106) -/

/-- R126 to R128. -/
theorem test_decode_shift_immediate :
    decodeWord 0b0000000100001000#16 = .lslImm 4#5 1#3 0#3 ∧
    decodeWord 0b0000111111110101#16 = .lsrImm 31#5 6#3 5#3 ∧
    decodeWord 0b0001000000010001#16 = .asrImm 0#5 2#3 1#3 := by decide

/-- R130 to R133. -/
theorem test_decode_add_subtract :
    decodeWord 0b0001100101110111#16 = .addReg 5#3 6#3 7#3 ∧
    decodeWord 0b0001101010001000#16 = .subReg 2#3 1#3 0#3 ∧
    decodeWord 0b0001110111010001#16 = .addImm3 7#3 2#3 1#3 ∧
    decodeWord 0b0001111001011100#16 = .subImm3 1#3 3#3 4#3 := by decide

/-- R135 to R138. -/
theorem test_decode_immediate8 :
    decodeWord 0b0010001110000000#16 = .movImm8 3#3 0x80#8 ∧
    decodeWord 0b0010101011111111#16 = .cmpImm8 2#3 0xFF#8 ∧
    decodeWord 0b0011010100000001#16 = .addImm8 5#3 1#8 ∧
    decodeWord 0b0011111011001000#16 = .subImm8 6#3 200#8 := by decide

/-- R141 to R148. -/
theorem test_decode_alu_first :
    decodeWord 0b0100000000001110#16 = .aluAnd 1#3 6#3 ∧
    decodeWord 0b0100000001001110#16 = .aluEor 1#3 6#3 ∧
    decodeWord 0b0100000010001110#16 = .aluLsl 1#3 6#3 ∧
    decodeWord 0b0100000011001110#16 = .aluLsr 1#3 6#3 ∧
    decodeWord 0b0100000100001110#16 = .aluAsr 1#3 6#3 ∧
    decodeWord 0b0100000101001110#16 = .aluAdc 1#3 6#3 ∧
    decodeWord 0b0100000110001110#16 = .aluSbc 1#3 6#3 ∧
    decodeWord 0b0100000111001110#16 = .aluRor 1#3 6#3 := by decide

/-- R149 to R156. -/
theorem test_decode_alu_second :
    decodeWord 0b0100001000101010#16 = .aluTst 5#3 2#3 ∧
    decodeWord 0b0100001001101010#16 = .aluNeg 5#3 2#3 ∧
    decodeWord 0b0100001010101010#16 = .aluCmp 5#3 2#3 ∧
    decodeWord 0b0100001011101010#16 = .aluCmn 5#3 2#3 ∧
    decodeWord 0b0100001100101010#16 = .aluOrr 5#3 2#3 ∧
    decodeWord 0b0100001101101010#16 = .aluMul 5#3 2#3 ∧
    decodeWord 0b0100001110101010#16 = .aluBic 5#3 2#3 ∧
    decodeWord 0b0100001111101010#16 = .aluMvn 5#3 2#3 := by decide

/-- R162, R163. -/
theorem test_decode_hi_reg_and_pc :
    decodeWord 0b0100011101110000#16 = .hiRegOp 0x370#10 ∧
    decodeWord 0b0100101000000001#16 = .ldrPc 0x201#11 := by decide

/-- R164 to R171. -/
theorem test_decode_register_offset :
    decodeWord 0b0101000101010011#16 = .strReg 0x153#9 ∧
    decodeWord 0b0101001101010011#16 = .strhReg 0x153#9 ∧
    decodeWord 0b0101010101010011#16 = .strbReg 0x153#9 ∧
    decodeWord 0b0101011101010011#16 = .ldsbReg 0x153#9 ∧
    decodeWord 0b0101100101010011#16 = .ldrReg 0x153#9 ∧
    decodeWord 0b0101101101010011#16 = .ldrhReg 0x153#9 ∧
    decodeWord 0b0101110101010011#16 = .ldrbReg 0x153#9 ∧
    decodeWord 0b0101111101010011#16 = .ldshReg 0x153#9 := by decide

/-- R172 to R179. -/
theorem test_decode_immediate_and_sp_relative :
    decodeWord 0b0110010110000111#16 = .strImm 0x587#11 ∧
    decodeWord 0b0110110110000111#16 = .ldrImm 0x587#11 ∧
    decodeWord 0b0111010110000111#16 = .strbImm 0x587#11 ∧
    decodeWord 0b0111110110000111#16 = .ldrbImm 0x587#11 ∧
    decodeWord 0b1000010110000111#16 = .strhImm 0x587#11 ∧
    decodeWord 0b1000110110000111#16 = .ldrhImm 0x587#11 ∧
    decodeWord 0b1001010110000111#16 = .strSp 0x587#11 ∧
    decodeWord 0b1001110110000111#16 = .ldrSp 0x587#11 := by decide

/-- R180 to R184, R197. -/
theorem test_decode_address_and_stack :
    decodeWord 0b1010000000000011#16 = .loadAddress14 3#11 ∧
    decodeWord 0b1010110000000000#16 = .loadAddress15 0x400#11 ∧
    decodeWord 0b1011000010000001#16 = .addSpOffset 0x81#8 ∧
    decodeWord 0b1011000100000000#16 = .undef16 0x100#11 ∧
    decodeWord 0b1011011111111111#16 = .undef16 0x7FF#11 ∧
    decodeWord 0b1011010100000000#16 = .push 0x100#9 ∧
    decodeWord 0b1011110100000000#16 = .pop 0x500#11 := by decide

/-- R185 to R190, R196, R198. -/
theorem test_decode_multiple_and_branch :
    decodeWord 0b1100000111000011#16 = .stmia 0x1C3#11 ∧
    decodeWord 0b1100111100001110#16 = .ldmia 0x70E#11 ∧
    decodeWord 0b1101000011111110#16 = .bCond 0x0FE#12 ∧
    decodeWord 0b1101111000000000#16 = .bCond 0xE00#12 ∧
    decodeWord 0b1101111100000101#16 = .swi 5#8 ∧
    decodeWord 0b1110011111111110#16 = .b 0x7FE#11 ∧
    decodeWord 0b1110111111111111#16 = .undefined 0x7FF#11 ∧
    decodeWord 0b1111000000000001#16 = .blLow 1#11 ∧
    decodeWord 0b1111110000000000#16 = .blHigh 0x400#11 := by decide

/-! ### Decoding: the first and last word of every selector and both sides of every secondary boundary (section 4) -/

/-- Every listed word decodes to the target beside it. -/
def routes (l : List (Half × Target)) : Bool := l.all (fun p => (decodeWord p.1).target == p.2)

theorem test_boundary_words_0 :
    routes
      [(0x0000#16, .lslImm), (0x07FF#16, .lslImm), (0x0800#16, .lsrImm), (0x0FFF#16, .lsrImm), (0x1000#16, .asrImm),
       (0x17FF#16, .asrImm), (0x1800#16, .addReg), (0x19FF#16, .addReg), (0x1A00#16, .subReg), (0x1BFF#16, .subReg),
       (0x1C00#16, .addImm3), (0x1DFF#16, .addImm3), (0x1E00#16, .subImm3), (0x1FFF#16, .subImm3),
       (0x2000#16, .movImm8), (0x27FF#16, .movImm8), (0x2800#16, .cmpImm8), (0x2FFF#16, .cmpImm8),
       (0x3000#16, .addImm8), (0x37FF#16, .addImm8), (0x3800#16, .subImm8), (0x3FFF#16, .subImm8),
       (0x4000#16, .aluAnd), (0x4040#16, .aluEor), (0x4080#16, .aluLsl), (0x40C0#16, .aluLsr), (0x4100#16, .aluAsr),
       (0x4140#16, .aluAdc), (0x4180#16, .aluSbc)] = true := by decide

theorem test_boundary_words_1 :
    routes
      [(0x41C0#16, .aluRor), (0x4200#16, .aluTst), (0x4240#16, .aluNeg), (0x4280#16, .aluCmp), (0x42C0#16, .aluCmn),
       (0x4300#16, .aluOrr), (0x4340#16, .aluMul), (0x4380#16, .aluBic), (0x43C0#16, .aluMvn), (0x43FF#16, .aluMvn),
       (0x4400#16, .hiRegOp), (0x46C0#16, .hiRegOp), (0x4770#16, .hiRegOp), (0x47FF#16, .hiRegOp),
       (0x4800#16, .ldrPc), (0x4FFF#16, .ldrPc), (0x5000#16, .strReg), (0x51FF#16, .strReg), (0x5200#16, .strhReg),
       (0x53FF#16, .strhReg), (0x5400#16, .strbReg), (0x55FF#16, .strbReg), (0x5600#16, .ldsbReg),
       (0x57FF#16, .ldsbReg), (0x5800#16, .ldrReg), (0x59FF#16, .ldrReg), (0x5A00#16, .ldrhReg),
       (0x5BFF#16, .ldrhReg), (0x5C00#16, .ldrbReg)] = true := by decide

theorem test_boundary_words_2 :
    routes
      [(0x5DFF#16, .ldrbReg), (0x5E00#16, .ldshReg), (0x5FFF#16, .ldshReg), (0x6000#16, .strImm),
       (0x67FF#16, .strImm), (0x6800#16, .ldrImm), (0x6FFF#16, .ldrImm), (0x7000#16, .strbImm),
       (0x77FF#16, .strbImm), (0x7800#16, .ldrbImm), (0x7FFF#16, .ldrbImm), (0x8000#16, .strhImm),
       (0x87FF#16, .strhImm), (0x8800#16, .ldrhImm), (0x8FFF#16, .ldrhImm), (0x9000#16, .strSp), (0x97FF#16, .strSp),
       (0x9800#16, .ldrSp), (0x9FFF#16, .ldrSp), (0xA000#16, .loadAddress14), (0xA7FF#16, .loadAddress14),
       (0xA800#16, .loadAddress15), (0xAFFF#16, .loadAddress15), (0xB000#16, .addSpOffset),
       (0xB0FF#16, .addSpOffset), (0xB100#16, .undef16), (0xB1FF#16, .undef16), (0xB200#16, .undef16),
       (0xB3FF#16, .undef16)] = true := by decide

theorem test_boundary_words_3 :
    routes
      [(0xB400#16, .push), (0xB5FF#16, .push), (0xB600#16, .undef16), (0xB7FF#16, .undef16), (0xB800#16, .pop),
       (0xBE00#16, .pop), (0xBF00#16, .pop), (0xBFFF#16, .pop), (0xC000#16, .stmia), (0xC7FF#16, .stmia),
       (0xC800#16, .ldmia), (0xCFFF#16, .ldmia), (0xD000#16, .bCond), (0xD7FF#16, .bCond), (0xD800#16, .bCond),
       (0xDDFF#16, .bCond), (0xDE00#16, .bCond), (0xDEFF#16, .bCond), (0xDF00#16, .swi), (0xDFFF#16, .swi),
       (0xE000#16, .b), (0xE7FE#16, .b), (0xE7FF#16, .b), (0xE800#16, .undefined), (0xEFFF#16, .undefined),
       (0xF000#16, .blLow), (0xF7FF#16, .blLow), (0xF800#16, .blHigh), (0xFFFF#16, .blHigh)] = true := by decide

/-! ### Executing: at most two vectors for each implemented instruction (section 3) -/

/-- LSL_IMM r0, r1, #0; LSL_IMM r2, r2, #1. -/
theorem test_lslImm :
    after 0x0008#16 [(1#3, 0x80000000#32)] 0b0010#4 =
      some (testRegs [(1#3, 0x80000000#32), (0#3, 0x80000000#32)], 0b1010#4, 2#32, .evNone) ∧
    after 0x0052#16 [(2#3, 0xC0000000#32)] 0b0001#4 =
      some (testRegs [(2#3, 0xC0000000#32), (2#3, 0x80000000#32)], 0b1011#4, 2#32, .evNone) := by decide

/-- LSR_IMM r2, r3, #0; LSR_IMM r2, r3, #0. -/
theorem test_lsrImm :
    after 0x081A#16 [(3#3, 0x7FFFFFFF#32)] 0b1011#4 =
      some (testRegs [(3#3, 0x7FFFFFFF#32), (2#3, 0x00000000#32)], 0b0101#4, 2#32, .evNone) ∧
    after 0x081A#16 [(3#3, 0x80000001#32)] 0b0000#4 =
      some (testRegs [(3#3, 0x80000001#32), (2#3, 0x00000000#32)], 0b0110#4, 2#32, .evNone) := by decide

/-- ASR_IMM r0, r0, #0. -/
theorem test_asrImm :
    after 0x1000#16 [(0#3, 0x80000000#32)] 0b0000#4 =
      some (testRegs [(0#3, 0x80000000#32), (0#3, 0xFFFFFFFF#32)], 0b1010#4, 2#32, .evNone) := by decide

/-- ADD_REG r7, r6, r5; ADD_REG r0, r0, r0. -/
theorem test_addReg :
    after 0x1977#16 [(5#3, 0x11111111#32), (6#3, 0x12345678#32)] 0b0110#4 =
      some (testRegs [(5#3, 0x11111111#32), (6#3, 0x12345678#32), (7#3, 0x23456789#32)], 0b0000#4, 2#32, .evNone) ∧
    after 0x1800#16 [(0#3, 0x80000000#32)] 0b0000#4 =
      some (testRegs [(0#3, 0x80000000#32), (0#3, 0x00000000#32)], 0b0111#4, 2#32, .evNone) := by decide

/-- SUB_REG r0, r1, r2; SUB_REG r0, r1, r2. -/
theorem test_subReg :
    after 0x1A88#16 [(1#3, 0x00000001#32), (2#3, 0x00000002#32)] 0b0000#4 =
      some (testRegs [(1#3, 0x00000001#32), (2#3, 0x00000002#32), (0#3, 0xFFFFFFFF#32)], 0b1000#4, 2#32, .evNone) ∧
    after 0x1A88#16 [(1#3, 0x80000000#32), (2#3, 0x00000001#32)] 0b0000#4 =
      some (testRegs [(1#3, 0x80000000#32), (2#3, 0x00000001#32), (0#3, 0x7FFFFFFF#32)], 0b0011#4, 2#32, .evNone) := by decide

/-- ADD_IMM3 r1, r2, #7; ADD_IMM3 r0, r0, #1. -/
theorem test_addImm3 :
    after 0x1DD1#16 [(2#3, 0xFFFFFFFF#32)] 0b0000#4 =
      some (testRegs [(2#3, 0xFFFFFFFF#32), (1#3, 0x00000006#32)], 0b0010#4, 2#32, .evNone) ∧
    after 0x1C40#16 [(0#3, 0x7FFFFFFF#32)] 0b0000#4 =
      some (testRegs [(0#3, 0x7FFFFFFF#32), (0#3, 0x80000000#32)], 0b1001#4, 2#32, .evNone) := by decide

/-- SUB_IMM3 r3, r3, #1; SUB_IMM3 r0, r1, #7. -/
theorem test_subImm3 :
    after 0x1E5B#16 [(3#3, 0x00000000#32)] 0b0000#4 =
      some (testRegs [(3#3, 0x00000000#32), (3#3, 0xFFFFFFFF#32)], 0b1000#4, 2#32, .evNone) ∧
    after 0x1FC8#16 [(1#3, 0x80000003#32)] 0b0000#4 =
      some (testRegs [(1#3, 0x80000003#32), (0#3, 0x7FFFFFFC#32)], 0b0011#4, 2#32, .evNone) := by decide

/-- MOV_IMM8 r0, #255; MOV_IMM8 r7, #0. -/
theorem test_movImm8 :
    after 0x20FF#16 [] 0b1111#4 =
      some (testRegs [(0#3, 0x000000FF#32)], 0b0011#4, 2#32, .evNone) ∧
    after 0x2700#16 [] 0b1011#4 =
      some (testRegs [(7#3, 0x00000000#32)], 0b0111#4, 2#32, .evNone) := by decide

/-- CMP_IMM8 r1, #17; CMP_IMM8 r1, #1. -/
theorem test_cmpImm8 :
    after 0x2911#16 [(1#3, 0x00000010#32)] 0b0000#4 =
      some (testRegs [(1#3, 0x00000010#32)], 0b1000#4, 2#32, .evNone) ∧
    after 0x2901#16 [(1#3, 0x80000000#32)] 0b0000#4 =
      some (testRegs [(1#3, 0x80000000#32)], 0b0011#4, 2#32, .evNone) := by decide

/-- ADD_IMM8 r2, #255; ADD_IMM8 r5, #0. -/
theorem test_addImm8 :
    after 0x32FF#16 [(2#3, 0x7FFFFF01#32)] 0b0000#4 =
      some (testRegs [(2#3, 0x7FFFFF01#32), (2#3, 0x80000000#32)], 0b1001#4, 2#32, .evNone) ∧
    after 0x3500#16 [(5#3, 0x80000000#32)] 0b0111#4 =
      some (testRegs [(5#3, 0x80000000#32), (5#3, 0x80000000#32)], 0b1000#4, 2#32, .evNone) := by decide

/-- SUB_IMM8 r3, #255; SUB_IMM8 r3, #1. -/
theorem test_subImm8 :
    after 0x3BFF#16 [(3#3, 0x80000000#32)] 0b0000#4 =
      some (testRegs [(3#3, 0x80000000#32), (3#3, 0x7FFFFF01#32)], 0b0011#4, 2#32, .evNone) ∧
    after 0x3B01#16 [(3#3, 0x00000000#32)] 0b0010#4 =
      some (testRegs [(3#3, 0x00000000#32), (3#3, 0xFFFFFFFF#32)], 0b1000#4, 2#32, .evNone) := by decide

/-- ALU_AND r0, r1; ALU_AND r0, r1. -/
theorem test_aluAnd :
    after 0x4008#16 [(0#3, 0xF0F0F0F0#32), (1#3, 0x0FF00FF0#32)] 0b0011#4 =
      some (testRegs [(0#3, 0xF0F0F0F0#32), (1#3, 0x0FF00FF0#32), (0#3, 0x00F000F0#32)], 0b0011#4, 2#32, .evNone) ∧
    after 0x4008#16 [(0#3, 0x0000FFFF#32), (1#3, 0xFFFF0000#32)] 0b1011#4 =
      some (testRegs [(0#3, 0x0000FFFF#32), (1#3, 0xFFFF0000#32), (0#3, 0x00000000#32)], 0b0111#4, 2#32, .evNone) := by decide

/-- ALU_EOR r0, r1; ALU_EOR r0, r1. -/
theorem test_aluEor :
    after 0x4048#16 [(0#3, 0xFFFFFFFF#32), (1#3, 0xFFFFFFFF#32)] 0b1011#4 =
      some (testRegs [(0#3, 0xFFFFFFFF#32), (1#3, 0xFFFFFFFF#32), (0#3, 0x00000000#32)], 0b0111#4, 2#32, .evNone) ∧
    after 0x4048#16 [(0#3, 0x80000000#32), (1#3, 0x00000001#32)] 0b0100#4 =
      some (testRegs [(0#3, 0x80000000#32), (1#3, 0x00000001#32), (0#3, 0x80000001#32)], 0b1000#4, 2#32, .evNone) := by decide

/-- ALU_LSL r0, r1; ALU_LSL r0, r1. -/
theorem test_aluLsl :
    after 0x4088#16 [(0#3, 0x80000001#32), (1#3, 0x00000100#32)] 0b0010#4 =
      some (testRegs [(0#3, 0x80000001#32), (1#3, 0x00000100#32), (0#3, 0x80000001#32)], 0b1010#4, 2#32, .evNone) ∧
    after 0x4088#16 [(0#3, 0x80000000#32), (1#3, 0x00000020#32)] 0b0010#4 =
      some (testRegs [(0#3, 0x80000000#32), (1#3, 0x00000020#32), (0#3, 0x00000000#32)], 0b0100#4, 2#32, .evNone) := by decide

/-- ALU_LSR r0, r1; ALU_LSR r0, r1. -/
theorem test_aluLsr :
    after 0x40C8#16 [(0#3, 0x80000001#32), (1#3, 0x00000020#32)] 0b0000#4 =
      some (testRegs [(0#3, 0x80000001#32), (1#3, 0x00000020#32), (0#3, 0x00000000#32)], 0b0110#4, 2#32, .evNone) ∧
    after 0x40C8#16 [(0#3, 0x00000001#32), (1#3, 0x00000020#32)] 0b0010#4 =
      some (testRegs [(0#3, 0x00000001#32), (1#3, 0x00000020#32), (0#3, 0x00000000#32)], 0b0100#4, 2#32, .evNone) := by decide

/-- ALU_ASR r0, r1; ALU_ASR r0, r1. -/
theorem test_aluAsr :
    after 0x4108#16 [(0#3, 0x80000002#32), (1#3, 0x00000002#32)] 0b0000#4 =
      some (testRegs [(0#3, 0x80000002#32), (1#3, 0x00000002#32), (0#3, 0xE0000000#32)], 0b1010#4, 2#32, .evNone) ∧
    after 0x4108#16 [(0#3, 0x7FFFFFFF#32), (1#3, 0x00000020#32)] 0b0010#4 =
      some (testRegs [(0#3, 0x7FFFFFFF#32), (1#3, 0x00000020#32), (0#3, 0x00000000#32)], 0b0100#4, 2#32, .evNone) := by decide

/-- ALU_ADC r0, r1; ALU_ADC r0, r1. -/
theorem test_aluAdc :
    after 0x4148#16 [(0#3, 0xFFFFFFFF#32), (1#3, 0x00000000#32)] 0b0010#4 =
      some (testRegs [(0#3, 0xFFFFFFFF#32), (1#3, 0x00000000#32), (0#3, 0x00000000#32)], 0b0110#4, 2#32, .evNone) ∧
    after 0x4148#16 [(0#3, 0x00000001#32), (1#3, 0x00000002#32)] 0b1101#4 =
      some (testRegs [(0#3, 0x00000001#32), (1#3, 0x00000002#32), (0#3, 0x00000003#32)], 0b0000#4, 2#32, .evNone) := by decide

/-- ALU_SBC r0, r1; ALU_SBC r0, r1. -/
theorem test_aluSbc :
    after 0x4188#16 [(0#3, 0x00000005#32), (1#3, 0x00000005#32)] 0b0000#4 =
      some (testRegs [(0#3, 0x00000005#32), (1#3, 0x00000005#32), (0#3, 0xFFFFFFFF#32)], 0b1000#4, 2#32, .evNone) ∧
    after 0x4188#16 [(0#3, 0x80000000#32), (1#3, 0x00000000#32)] 0b0000#4 =
      some (testRegs [(0#3, 0x80000000#32), (1#3, 0x00000000#32), (0#3, 0x7FFFFFFF#32)], 0b0011#4, 2#32, .evNone) := by decide

/-- ALU_ROR r0, r1; ALU_ROR r0, r1. -/
theorem test_aluRor :
    after 0x41C8#16 [(0#3, 0x7FFFFFFF#32), (1#3, 0x00000000#32)] 0b0011#4 =
      some (testRegs [(0#3, 0x7FFFFFFF#32), (1#3, 0x00000000#32), (0#3, 0x7FFFFFFF#32)], 0b0001#4, 2#32, .evNone) ∧
    after 0x41C8#16 [(0#3, 0x12345678#32), (1#3, 0x00000004#32)] 0b0000#4 =
      some (testRegs [(0#3, 0x12345678#32), (1#3, 0x00000004#32), (0#3, 0x81234567#32)], 0b1010#4, 2#32, .evNone) := by decide

/-- ALU_TST r0, r1; ALU_TST r0, r1. -/
theorem test_aluTst :
    after 0x4208#16 [(0#3, 0x80000000#32), (1#3, 0x80000000#32)] 0b0011#4 =
      some (testRegs [(0#3, 0x80000000#32), (1#3, 0x80000000#32)], 0b1011#4, 2#32, .evNone) ∧
    after 0x4208#16 [(0#3, 0x0000000F#32), (1#3, 0x000000F0#32)] 0b1000#4 =
      some (testRegs [(0#3, 0x0000000F#32), (1#3, 0x000000F0#32)], 0b0100#4, 2#32, .evNone) := by decide

/-- ALU_NEG r0, r1; ALU_NEG r0, r1. -/
theorem test_aluNeg :
    after 0x4248#16 [(1#3, 0x80000000#32)] 0b0010#4 =
      some (testRegs [(1#3, 0x80000000#32), (0#3, 0x80000000#32)], 0b1011#4, 2#32, .evNone) ∧
    after 0x4248#16 [(1#3, 0x00000000#32)] 0b0010#4 =
      some (testRegs [(1#3, 0x00000000#32), (0#3, 0x00000000#32)], 0b0111#4, 2#32, .evNone) := by decide

/-- ALU_CMP r0, r1; ALU_CMP r0, r1. -/
theorem test_aluCmp :
    after 0x4288#16 [(0#3, 0x00000001#32), (1#3, 0x00000002#32)] 0b0000#4 =
      some (testRegs [(0#3, 0x00000001#32), (1#3, 0x00000002#32)], 0b1000#4, 2#32, .evNone) ∧
    after 0x4288#16 [(0#3, 0x80000000#32), (1#3, 0x00000001#32)] 0b0000#4 =
      some (testRegs [(0#3, 0x80000000#32), (1#3, 0x00000001#32)], 0b0011#4, 2#32, .evNone) := by decide

/-- ALU_CMN r0, r1; ALU_CMN r0, r1. -/
theorem test_aluCmn :
    after 0x42C8#16 [(0#3, 0x7FFFFFFF#32), (1#3, 0x00000001#32)] 0b0000#4 =
      some (testRegs [(0#3, 0x7FFFFFFF#32), (1#3, 0x00000001#32)], 0b1001#4, 2#32, .evNone) ∧
    after 0x42C8#16 [(0#3, 0xFFFFFFFF#32), (1#3, 0x00000001#32)] 0b0000#4 =
      some (testRegs [(0#3, 0xFFFFFFFF#32), (1#3, 0x00000001#32)], 0b0110#4, 2#32, .evNone) := by decide

/-- ALU_ORR r0, r1; ALU_ORR r3, r4. -/
theorem test_aluOrr :
    after 0x4308#16 [(0#3, 0x0000FF00#32), (1#3, 0x000000FF#32)] 0b0000#4 =
      some (testRegs [(0#3, 0x0000FF00#32), (1#3, 0x000000FF#32), (0#3, 0x0000FFFF#32)], 0b0000#4, 2#32, .evNone) ∧
    after 0x4323#16 [(3#3, 0x00000000#32), (4#3, 0x00000000#32)] 0b1011#4 =
      some (testRegs [(3#3, 0x00000000#32), (4#3, 0x00000000#32), (3#3, 0x00000000#32)], 0b0111#4, 2#32, .evNone) := by decide

/-- ALU_MUL r0, r1; ALU_MUL r0, r1. -/
theorem test_aluMul :
    after 0x4348#16 [(0#3, 0xFFFFFFFF#32), (1#3, 0xFFFFFFFF#32)] 0b0011#4 =
      some (testRegs [(0#3, 0xFFFFFFFF#32), (1#3, 0xFFFFFFFF#32), (0#3, 0x00000001#32)], 0b0001#4, 2#32, .evNone) ∧
    after 0x4348#16 [(0#3, 0xFFFFFFFF#32), (1#3, 0x00000002#32)] 0b0000#4 =
      some (testRegs [(0#3, 0xFFFFFFFF#32), (1#3, 0x00000002#32), (0#3, 0xFFFFFFFE#32)], 0b1000#4, 2#32, .evNone) := by decide

/-- ALU_BIC r0, r1; ALU_BIC r5, r5. -/
theorem test_aluBic :
    after 0x4388#16 [(0#3, 0xFFFFFFFF#32), (1#3, 0x0000FFFF#32)] 0b0000#4 =
      some (testRegs [(0#3, 0xFFFFFFFF#32), (1#3, 0x0000FFFF#32), (0#3, 0xFFFF0000#32)], 0b1000#4, 2#32, .evNone) ∧
    after 0x43AD#16 [(5#3, 0x12345678#32)] 0b1011#4 =
      some (testRegs [(5#3, 0x12345678#32), (5#3, 0x00000000#32)], 0b0111#4, 2#32, .evNone) := by decide

/-- ALU_MVN r0, r1; ALU_MVN r0, r1. -/
theorem test_aluMvn :
    after 0x43C8#16 [(1#3, 0x00000000#32)] 0b0011#4 =
      some (testRegs [(1#3, 0x00000000#32), (0#3, 0xFFFFFFFF#32)], 0b1011#4, 2#32, .evNone) ∧
    after 0x43C8#16 [(1#3, 0xFFFFFFFF#32)] 0b1000#4 =
      some (testRegs [(1#3, 0xFFFFFFFF#32), (0#3, 0x00000000#32)], 0b0100#4, 2#32, .evNone) := by decide

/-! ### Reporting: each step leaves every field but the event port (section 7; the addresses are the section's own) -/

theorem test_report_undefined :
    reports 0x00000100#32 0xE800#16 (.evUndefined 0xE800#16 0x00000100#32) ∧
    reports 0x00000102#32 0xEFFF#16 (.evUndefined 0xEFFF#16 0x00000102#32) ∧
    reports 0x00000104#32 0xB100#16 (.evUndefined 0xB100#16 0x00000104#32) ∧
    reports 0x00000106#32 0xB3FF#16 (.evUndefined 0xB3FF#16 0x00000106#32) ∧
    reports 0x00000108#32 0xB600#16 (.evUndefined 0xB600#16 0x00000108#32) ∧
    reports 0x0000010A#32 0xB7FF#16 (.evUndefined 0xB7FF#16 0x0000010A#32) := by
  unfold reports; decide

theorem test_report_swi :
    reports 0x00000200#32 0xDF05#16 (.evSwi 0xDF05#16 0x00000200#32) ∧
    reports 0x00000202#32 0xDF00#16 (.evSwi 0xDF00#16 0x00000202#32) ∧
    reports 0x00000204#32 0xDFFF#16 (.evSwi 0xDFFF#16 0x00000204#32) := by
  unfold reports; decide

theorem test_report_hi_reg_and_register_offset :
    reports 0x00000300#32 0x4770#16 (.evUnimplemented .hiRegOp 0x4770#16 0x00000300#32) ∧
    reports 0x00000302#32 0x46C0#16 (.evUnimplemented .hiRegOp 0x46C0#16 0x00000302#32) ∧
    reports 0x00000304#32 0x4800#16 (.evUnimplemented .ldrPc 0x4800#16 0x00000304#32) ∧
    reports 0x00000306#32 0x5000#16 (.evUnimplemented .strReg 0x5000#16 0x00000306#32) ∧
    reports 0x00000308#32 0x5E00#16 (.evUnimplemented .ldshReg 0x5E00#16 0x00000308#32) ∧
    reports 0x00000328#32 0x5200#16 (.evUnimplemented .strhReg 0x5200#16 0x00000328#32) ∧
    reports 0x0000032A#32 0x5400#16 (.evUnimplemented .strbReg 0x5400#16 0x0000032A#32) ∧
    reports 0x0000032C#32 0x5600#16 (.evUnimplemented .ldsbReg 0x5600#16 0x0000032C#32) ∧
    reports 0x0000032E#32 0x5800#16 (.evUnimplemented .ldrReg 0x5800#16 0x0000032E#32) ∧
    reports 0x00000330#32 0x5A00#16 (.evUnimplemented .ldrhReg 0x5A00#16 0x00000330#32) ∧
    reports 0x00000332#32 0x5C00#16 (.evUnimplemented .ldrbReg 0x5C00#16 0x00000332#32) := by
  unfold reports; decide

theorem test_report_immediate_and_sp_relative :
    reports 0x0000030A#32 0x6000#16 (.evUnimplemented .strImm 0x6000#16 0x0000030A#32) ∧
    reports 0x0000030C#32 0x9800#16 (.evUnimplemented .ldrSp 0x9800#16 0x0000030C#32) ∧
    reports 0x00000334#32 0x6800#16 (.evUnimplemented .ldrImm 0x6800#16 0x00000334#32) ∧
    reports 0x00000336#32 0x7000#16 (.evUnimplemented .strbImm 0x7000#16 0x00000336#32) ∧
    reports 0x00000338#32 0x7800#16 (.evUnimplemented .ldrbImm 0x7800#16 0x00000338#32) ∧
    reports 0x0000033A#32 0x8000#16 (.evUnimplemented .strhImm 0x8000#16 0x0000033A#32) ∧
    reports 0x0000033C#32 0x8800#16 (.evUnimplemented .ldrhImm 0x8800#16 0x0000033C#32) ∧
    reports 0x0000033E#32 0x9000#16 (.evUnimplemented .strSp 0x9000#16 0x0000033E#32) := by
  unfold reports; decide

theorem test_report_address_and_stack :
    reports 0x0000030E#32 0xA000#16 (.evUnimplemented .loadAddress14 0xA000#16 0x0000030E#32) ∧
    reports 0x00000310#32 0xA800#16 (.evUnimplemented .loadAddress15 0xA800#16 0x00000310#32) ∧
    reports 0x00000312#32 0xB000#16 (.evUnimplemented .addSpOffset 0xB000#16 0x00000312#32) ∧
    reports 0x00000314#32 0xB500#16 (.evUnimplemented .push 0xB500#16 0x00000314#32) ∧
    reports 0x00000316#32 0xBD00#16 (.evUnimplemented .pop 0xBD00#16 0x00000316#32) ∧
    reports 0x00000318#32 0xBF00#16 (.evUnimplemented .pop 0xBF00#16 0x00000318#32) := by
  unfold reports; decide

theorem test_report_multiple_and_branch :
    reports 0x0000031A#32 0xC000#16 (.evUnimplemented .stmia 0xC000#16 0x0000031A#32) ∧
    reports 0x0000031C#32 0xC800#16 (.evUnimplemented .ldmia 0xC800#16 0x0000031C#32) ∧
    reports 0x0000031E#32 0xD000#16 (.evUnimplemented .bCond 0xD000#16 0x0000031E#32) ∧
    reports 0x00000320#32 0xDE00#16 (.evUnimplemented .bCond 0xDE00#16 0x00000320#32) ∧
    reports 0x00000322#32 0xE7FE#16 (.evUnimplemented .b 0xE7FE#16 0x00000322#32) ∧
    reports 0x00000324#32 0xF000#16 (.evUnimplemented .blLow 0xF000#16 0x00000324#32) ∧
    reports 0x00000326#32 0xF800#16 (.evUnimplemented .blHigh 0xF800#16 0x00000326#32) := by
  unfold reports; decide
/-! ### The datapath functions at the boundary amounts 0, 1, 31, 32, 33 and 255, and the carries (section 2) -/

theorem test_shiftLSL_boundaries :
    shiftLSL 0x80000001#32 0 true = (0x80000001#32, true) ∧
    shiftLSL 0x80000001#32 1 false = (0x00000002#32, true) ∧
    shiftLSL 0x80000001#32 31 false = (0x80000000#32, false) ∧
    shiftLSL 0x80000000#32 32 false = (0x00000000#32, false) ∧
    shiftLSL 0x00000001#32 32 false = (0x00000000#32, true) ∧
    shiftLSL 0xFFFFFFFF#32 33 true = (0x00000000#32, false) ∧
    shiftLSL 0x80000001#32 255 true = (0x00000000#32, false) := by decide

theorem test_shiftLSR_boundaries :
    shiftLSR 0x80000001#32 0 true = (0x80000001#32, true) ∧
    shiftLSR 0x80000001#32 1 false = (0x40000000#32, true) ∧
    shiftLSR 0x80000001#32 31 false = (0x00000001#32, false) ∧
    shiftLSR 0x80000000#32 32 false = (0x00000000#32, true) ∧
    shiftLSR 0x00000001#32 32 false = (0x00000000#32, false) ∧
    shiftLSR 0xFFFFFFFF#32 33 true = (0x00000000#32, false) ∧
    shiftLSR 0x80000001#32 255 true = (0x00000000#32, false) := by decide

theorem test_shiftASR_boundaries :
    shiftASR 0x80000001#32 0 true = (0x80000001#32, true) ∧
    shiftASR 0x80000001#32 1 false = (0xC0000000#32, true) ∧
    shiftASR 0x80000001#32 31 false = (0xFFFFFFFF#32, false) ∧
    shiftASR 0x80000000#32 32 false = (0xFFFFFFFF#32, true) ∧
    shiftASR 0x00000001#32 32 false = (0x00000000#32, false) ∧
    shiftASR 0xFFFFFFFF#32 33 true = (0xFFFFFFFF#32, true) ∧
    shiftASR 0x80000001#32 255 true = (0xFFFFFFFF#32, true) := by decide

theorem test_rotROR_boundaries :
    rotROR 0x80000001#32 0 true = (0x80000001#32, true) ∧
    rotROR 0x80000001#32 1 false = (0xC0000000#32, true) ∧
    rotROR 0x80000001#32 31 false = (0x00000003#32, false) ∧
    rotROR 0x80000000#32 32 false = (0x80000000#32, true) ∧
    rotROR 0x00000001#32 32 false = (0x00000001#32, false) ∧
    rotROR 0xFFFFFFFF#32 33 true = (0xFFFFFFFF#32, true) ∧
    rotROR 0x80000001#32 255 true = (0x00000003#32, false) := by decide

/-- The result and the flags of an add or subtract from cleared flags. -/
def flagged (out : Word × StatusRegister) : Word × BitVec 4 :=
  (out.1, BitVec.ofBool out.2.n ++ BitVec.ofBool out.2.z ++ BitVec.ofBool out.2.c ++ BitVec.ofBool out.2.v)

theorem test_addC :
    flagged (addC StatusRegister.reset 0x7FFFFFFF#32 0x00000001#32 false) = (0x80000000#32, 0b1001#4) ∧
    flagged (addC StatusRegister.reset 0x80000000#32 0x80000000#32 false) = (0x00000000#32, 0b0111#4) ∧
    flagged (addC StatusRegister.reset 0x7FFFFFFF#32 0x00000000#32 true) = (0x80000000#32, 0b1001#4) ∧
    flagged (addC StatusRegister.reset 0xFFFFFFFF#32 0xFFFFFFFF#32 true) = (0xFFFFFFFF#32, 0b1010#4) := by decide

theorem test_subC :
    flagged (subC StatusRegister.reset 0x00000001#32 0x00000002#32 true) = (0xFFFFFFFF#32, 0b1000#4) ∧
    flagged (subC StatusRegister.reset 0x80000000#32 0x00000001#32 true) = (0x7FFFFFFF#32, 0b0011#4) ∧
    flagged (subC StatusRegister.reset 0x00000000#32 0x00000001#32 true) = (0xFFFFFFFF#32, 0b1000#4) ∧
    flagged (subC StatusRegister.reset 0x80000000#32 0x00000000#32 false) = (0x7FFFFFFF#32, 0b0011#4) ∧
    flagged (subC StatusRegister.reset 0x00000000#32 0xFFFFFFFF#32 false) = (0x00000000#32, 0b0100#4) := by decide

/-! ### The status word (section 5) and fetching (section 6) -/

theorem test_load_save :
    (State.reset.load 0xA0000093#32).sr =
      { n := true, z := false, c := true, v := false, i := true, f := false, w := false, m := 0x13#5 } ∧
    (State.reset.load 0x12345678#32).sr =
      { n := false, z := false, c := false, v := true, i := false, f := true, w := true, m := 0x18#5 } ∧
    (State.reset.load 0xA0000093#32).save = 0xA0000093#32 ∧ (State.reset.load 0xFFFFFFFF#32).save = 0xF00000FF#32 ∧
    (State.reset.load 0x0FFFFF00#32).save = 0#32 ∧ (State.reset.load 0x12345678#32).save = 0x10000078#32 ∧
    (State.reset.load 0x5#32).save = 0x5#32 := by decide

/-- The low byte stands at `pc`; an odd `pc`; the high byte past the top of the address space. -/
theorem test_fetch :
    ((State.reset.pokeByte 0#32 0xFF#8).pokeByte 1#32 0x20#8).fetch 0#32 = 0x20FF#16 ∧
    ((State.reset.pokeByte 0#32 0x20#8).pokeByte 1#32 0xFF#8).fetch 0#32 = 0xFF20#16 ∧
    ((State.reset.pokeByte 0x08000001#32 0x40#8).pokeByte 0x08000002#32 0x1C#8).fetch 0x08000001#32 = 0x1C40#16 ∧
    ((State.reset.pokeByte 0xFFFFFFFF#32 0x48#8).pokeByte 0#32 0x42#8).fetch 0xFFFFFFFF#32 = 0x4248#16 := by decide

/-- Program 5, step 6 (section 8): the word at 0xFFFFFFFF, its high byte at 0, and the next `pc` at 1. -/
theorem test_pc_wraps :
    (nextOf (step ({ testState [] 0#4 with pc := 0xFFFFFFFF#32 }.withFetchWord 16 0x2400))).map
      (fun t => (t.x 4#3, nzcv t, t.pc)) = some (0#32, 0b0100#4, 1#32) := by decide

/-! ### The hypotheses of the statements can be met -/

/-- A state that is not the reset state: registers written, a defined mode, I set, and the word at an odd `pc`. -/
def witnessState (w : Half) : State :=
  { State.reset with
    regs := testRegs [(0#3, 0x80000001#32), (1#3, 32#32)]
    sr := { n := true, z := false, c := true, v := false, i := true, f := false, w := false, m := 0x1F#5 }
    pc := 0x101#32 }.placeWord 0x101#32 w

/-- ReservedBitsAreNotState: two words that differ in reserved bits only; and both ends of the reserved range. -/
theorem witness_ReservedBitsAreNotState :
    (∃ word word' : Word, word ≠ word' ∧ ∀ k, k < 8 ∨ 28 ≤ k → word.getLsbD k = word'.getLsbD k) ∧
    ((8 ≤ 8 ∧ 8 ≤ 27) ∧ (8 ≤ 27 ∧ 27 ≤ 27)) := by
  refine ⟨⟨0xA0000093#32, 0xA8000193#32, by decide, fun k hk => ?_⟩, by decide⟩
  by_cases h : k < 32
  · have key : ∀ j : Fin 32, j.val < 8 ∨ 28 ≤ j.val →
        BitVec.getLsbD 0xA0000093#32 j.val = BitVec.getLsbD 0xA8000193#32 j.val := by decide
    exact key ⟨k, h⟩ hk
  · rw [BitVec.getLsbD_of_ge _ k (by omega), BitVec.getLsbD_of_ge _ k (by omega)]

/-- SaveLaysOutEveryField: both ends of every range of its clauses, on a word with every field set. -/
theorem witness_SaveLaysOutEveryField :
    ([0, 4, 5, 6, 7, 8, 27, 28, 29, 30, 31].map (fun k => (State.reset.load 0xFFFFFFFF#32).save.getLsbD k)) =
      [true, true, true, true, true, false, false, true, true, true, true] := by decide

/-- StatusWordRoundTrip, first clause. -/
theorem witness_StatusWordRoundTrip : (0xA0000093#32 : Word) &&& 0x0FFFFF00#32 = 0#32 := by decide

/-- RegisterSetterMasksTheIndex: a packed byte whose low three bits name register 5, and its neighbour. -/
theorem witness_RegisterSetterMasksTheIndex :
    nextOf (callCore (.setLowReg 0xFD#8 7#32) State.reset) = some { State.reset with regs := setReg State.reset.regs 5#3 7#32 } ∧
    (State.reset.setLowReg 0xFD#8 7#32).x 5#3 = 7#32 ∧ (State.reset.setLowReg 0xFD#8 7#32).x 4#3 = 0#32 := by decide

/-- ChangedByteReadsBackAndNoOther and PlacedWordIsTheNextInstruction: a canonical memory that lists cells. -/
theorem witness_canonical_memory :
    (witnessState 0x20FF#16).mem = [(0x101, 0xFF#8), (0x102, 0x20#8)] ∧ (witnessState 0x20FF#16).mem.wf = true := by decide

/-- EveryCallKeepsTheMemoryCanonical: calls of all four kinds that answer a next state. -/
theorem witness_EveryCallKeepsTheMemoryCanonical :
    (witnessState 0x20FF#16).mem.wf = true ∧
    (nextOf (drive [.pokeByte 0x102#32 0#8, .load 0x1F#32, .setLowReg 9#8 1#32, .step 0x101#32] (witnessState 0x20FF#16))).map
      (fun t => t.mem) = some [(0x101, 0xFF#8)] := by decide

/-- FetchIsLittleEndian: the high byte past the top of the address space. -/
theorem witness_FetchIsLittleEndian : (0#32 : Word).toNat = ((0xFFFFFFFF#32 : Word).toNat + 1) % 2 ^ 32 := by decide

/-- DecodeUndoesEncode: well-formed terms, the two targets with a check among them, at the edges of what it admits. -/
theorem witness_DecodeUndoesEncode :
    (Instr.addReg 7#3 0#3 5#3).wf = true ∧ (Instr.bCond 0xEFF#12).wf = true ∧ (Instr.undef16 0x100#11).wf = true ∧
    (Instr.undef16 0x3FF#11).wf = true ∧ (Instr.undef16 0x600#11).wf = true := by decide

/-- ShiftAndImmediateSelectorsRoute, WholeSelectorStubsRoute, BranchNeverFallsIntoUndefined: the first and the last word of
every selector meet the premise of its clause. -/
theorem witness_selector_ranges : ∀ k : Fin 32,
    (BitVec.ofNat 16 (k.val * 2048)).toNat / 2048 = k.val ∧ (BitVec.ofNat 16 (k.val * 2048 + 2047)).toNat / 2048 = k.val := by
  decide

/-- DecidedRoutingsFollowTheSpec and AluSubOpcodesFollowTheList: the two ends of every range of selector 0x16, and the last
operation of the list. -/
theorem witness_decided_ranges :
    decodeWord 0xB0FF#16 = .addSpOffset 0xFF#8 ∧ decodeWord 0xB3FF#16 = .undef16 0x3FF#11 ∧
    decodeWord 0xB5FF#16 = .push 0x1FF#9 ∧ decodeWord 0xB7FF#16 = .undef16 0x7FF#11 ∧
    decodeWord 0xDEFF#16 = .bCond 0xEFF#12 ∧ decodeWord 0xDFFF#16 = .swi 0xFF#8 ∧
    decodeWord (0b01000#5 ++ 0#1 ++ 15#4 ++ 5#3 ++ 2#3) = .aluMvn 5#3 2#3 := by decide

/-- StepRunsTheDecodedInstruction: a running state whose bytes at `pc` decode. -/
theorem witness_StepRunsTheDecodedInstruction :
    Running (witnessState 0x40C8#16) ∧
    decode [(witnessState 0x40C8#16).readByte (witnessState 0x40C8#16).pc,
      (witnessState 0x40C8#16).readByte ((witnessState 0x40C8#16).pc + 1)] = .ok (.aluLsr 1#3 0#3, []) :=
  ⟨⟨by decide, by decide⟩, rfl⟩

/-- PlacedWordIsTheNextInstruction: the next step runs the placed word, whatever stood there and whatever event ended the run. -/
theorem witness_PlacedWordIsTheNextInstruction :
    decodeTableWord 16 0xDF05 = some (.swi 5#8) ∧
    (nextOf (step (({ witnessState 0x40C8#16 with event := .evSwi 0xDF00#16 0#32 }).withFetchWord 16 0xDF05))).map
      (fun t => t.event) = some (.evSwi 0xDF05#16 0x101#32) := by decide

/-- WideModeIsRefused: a state in wide mode that no event has ended. -/
theorem witness_WideModeIsRefused :
    ((witnessState 0x40C8#16).load 0x3F#32).sr.w = true ∧ ((witnessState 0x40C8#16).load 0x3F#32).event = .evNone := by decide

/-- UndefinedEndsTheRun: a running state at a word of each undefined target. -/
theorem witness_UndefinedEndsTheRun :
    (Running (witnessState 0xE800#16) ∧
      (decodeWord ((witnessState 0xE800#16).fetch (witnessState 0xE800#16).pc)).target.isUndefined = true) ∧
    (Running (witnessState 0xB600#16) ∧
      (decodeWord ((witnessState 0xB600#16).fetch (witnessState 0xB600#16).pc)).target.isUndefined = true) := by
  unfold Running; decide

/-- UndefinedWordsAreExactlyThese: the ends of the undefined ranges report code 1, their outer neighbours do not. -/
theorem witness_UndefinedWordsAreExactlyThese :
    ([0xE800#16, 0xEFFF#16, 0xB100#16, 0xB3FF#16, 0xB600#16, 0xB7FF#16].map fun w =>
      (nextOf (step (witnessState w))).map (fun t => t.event.code)) = List.replicate 6 (some 1) ∧
    ([0xE7FF#16, 0xF000#16, 0xB0FF#16, 0xB400#16, 0xB5FF#16, 0xB800#16].map fun w =>
      (nextOf (step (witnessState w))).map (fun t => t.event.code)) = List.replicate 6 (some 3) := by decide

/-- EveryStepReportsTheEventOfItsTarget: a running state for each of its four classes of target. -/
theorem witness_EveryStepReportsTheEventOfItsTarget :
    (Running (witnessState 0x40C8#16) ∧ Target.aluLsr.isImplemented = true) ∧
    (Running (witnessState 0xB100#16) ∧ Target.undef16.isUndefined = true) ∧
    (Running (witnessState 0xE7FE#16) ∧ Target.b.isStub = true) ∧
    (decodeWord ((witnessState 0xE7FE#16).fetch (witnessState 0xE7FE#16).pc)).target = .b ∧
    (decodeWord ((witnessState 0xDF05#16).fetch (witnessState 0xDF05#16).pc)).target = .swi := by
  unfold Running; decide

/-- ReportIsPrecise and the second clause of DriverAdvancesByTwoOrStops: a step that reports a stub. -/
theorem witness_reporting_step : ∃ t, step (witnessState 0xE7FE#16) = .next t ∧ t.event ≠ .evNone :=
  ⟨_, rfl, by decide⟩

/-- The first clause of DriverAdvancesByTwoOrStops: a step that retires an instruction. -/
theorem witness_retiring_step : ∃ t, step (witnessState 0x40C8#16) = .next t ∧ t.event = .evNone ∧ t.pc = 0x103#32 :=
  ⟨_, rfl, by decide, by decide⟩

/-- CoreMayResumeAnywhere: a 16-bit-mode status word with every other field set. -/
theorem witness_CoreMayResumeAnywhere : (0xF00000DF#32 : Word).getLsbD 5 = false := by decide

/-- The result statements: register amounts that reach every clause of the four tables, 256 reducing to 0 and 33 past 32. -/
theorem witness_amounts :
    ([0#32, 1#32, 31#32, 32#32, 33#32, 255#32, 256#32].map lowEight) = [0, 1, 31, 32, 33, 255, 0] := by decide

/-- OnlyTheNamedFlagsChange and OnlyTheNamedRegistersAreReadOrWritten (first clause), BlockWritesNeitherMemoryNorPc: an
execution that writes a register and flags, and one that meets each clause's premise. -/
theorem witness_execution :
    (∃ t, exec (.aluMul 1#3 0#3) (witnessState 0x4348#16) = .next t ∧ t.sr.c = false) ∧
    regWritten (.aluMul 1#3 0#3) = some 0#3 ∧ writesV (.aluMul 1#3 0#3) = false ∧
    writesC (witnessState 0x4348#16) (.aluNeg 1#3 0#3) = false ∧ writesC State.reset (.aluLsl 1#3 0#3) = false ∧
    writesC State.reset (.lslImm 0#5 1#3 0#3) = false ∧ writesNZ (.swi 5#8) = false := by
  refine ⟨⟨_, rfl, by decide⟩, ?_⟩
  decide

/-- OnlyTheNamedRegistersAreReadOrWritten, second clause: two states with the same status that agree on what MUL reads. -/
theorem witness_registers_read :
    (testState [(0#3, 3#32), (1#3, 5#32), (2#3, 7#32)] 0b0010#4).sr = (testState [(0#3, 3#32), (1#3, 5#32)] 0b0010#4).sr ∧
    (testState [(0#3, 3#32), (1#3, 5#32), (2#3, 7#32)] 0b0010#4).x 2#3 ≠ (testState [(0#3, 3#32), (1#3, 5#32)] 0b0010#4).x 2#3 ∧
    (∀ j ∈ regsRead (.aluMul 1#3 0#3), (testState [(0#3, 3#32), (1#3, 5#32), (2#3, 7#32)] 0b0010#4).x j =
      (testState [(0#3, 3#32), (1#3, 5#32)] 0b0010#4).x j) ∧
    (∃ t, exec (.aluMul 1#3 0#3) (testState [(0#3, 3#32), (1#3, 5#32), (2#3, 7#32)] 0b0010#4) = .next t) ∧
    (∃ t, exec (.aluMul 1#3 0#3) (testState [(0#3, 3#32), (1#3, 5#32)] 0b0010#4) = .next t) :=
  ⟨by decide, by decide, by decide, ⟨_, rfl⟩, ⟨_, rfl⟩⟩

/-- OnlyTheCarryFlagIsRead: two states that agree on C and the registers and differ in N, Z and V. -/
theorem witness_OnlyTheCarryFlagIsRead :
    (testState [] 0b1010#4).regs = (testState [] 0b0111#4).regs ∧ (testState [] 0b1010#4).sr.c = (testState [] 0b0111#4).sr.c ∧
    (testState [] 0b1010#4).sr ≠ (testState [] 0b0111#4).sr ∧
    (∃ t, exec (.aluAdc 1#3 0#3) (testState [] 0b1010#4) = .next t) ∧
    (∃ t, exec (.aluAdc 1#3 0#3) (testState [] 0b0111#4) = .next t) ∧
    writesNZ (.aluAdc 1#3 0#3) = true ∧ writesV (.aluAdc 1#3 0#3) = true :=
  ⟨by decide, by decide, by decide, ⟨_, rfl⟩, ⟨_, rfl⟩, rfl, rfl⟩

/-- ControlFieldsChangeOnlyByLoad: calls without a load that answer a next state. -/
theorem witness_ControlFieldsChangeOnlyByLoad :
    (∀ word, CoreCall.load word ∉ [CoreCall.setLowReg 9#8 1#32, .step 0x101#32, .pokeByte 3#32 4#8]) ∧
    ∃ t, drive [.setLowReg 9#8 1#32, .step 0x101#32, .pokeByte 3#32 4#8] (witnessState 0x20FF#16) = .next t :=
  ⟨by simp, ⟨_, rfl⟩⟩

/-- StepKeepsTheRunInvariant: a state, not the reset state, that meets the invariant and steps; and one past a report. -/
theorem witness_StepKeepsTheRunInvariant :
    Inv (witnessState 0xE7FE#16) ∧ (∃ t, step (witnessState 0xE7FE#16) = .next t) ∧
    Inv { witnessState 0xE7FE#16 with event := .evUnimplemented .b 0xE7FE#16 0x101#32 } :=
  ⟨⟨by decide, by decide, by decide, trivial⟩, ⟨_, rfl⟩,
    ⟨by decide, by decide, by decide, ⟨by decide, by decide, by decide, by decide⟩⟩⟩

end Sys2Proof.Machine
end

