-- ==== Sys2Proof/Proofs/StatusWord.lean ====
section
/-! SUPPORT. The layout of the status word (R29, R30, R32): `load` reads back each field from where `save` puts it, `save` puts
zeros between the flags and the masks, and `load` reads none of the reserved bits. -/

namespace Sys2Proof.Machine

/-- R31, third sentence: each field stands in the saved word at the bit from which `load` takes it. -/
@[simp] theorem StatusRegister.load_save (sr : StatusRegister) : StatusRegister.load sr.save = sr := by
  have hm : sr.save.extractLsb' 0 5 = sr.m := BitVec.extractLsb'_append_eq_right
  simp only [StatusRegister.load, hm]
  simp only [StatusRegister.save, BitVec.getLsbD_append]
  simp

/-- Below bit 5 the saved word is the mode code. -/
theorem StatusRegister.getLsbD_save_of_lt (sr : StatusRegister) {k : Nat} (hk : k < 5) :
    sr.save.getLsbD k = sr.m.getLsbD k := by
  rw [StatusRegister.save, BitVec.getLsbD_append, if_pos hk]

/-- Bits 27:8 of the saved word are the twenty zeros above the eight bits of I, F, W and the mode, and below V. -/
theorem StatusRegister.getLsbD_save_reserved (sr : StatusRegister) {k : Nat} (hlo : 8 ≤ k) (hhi : k ≤ 27) :
    sr.save.getLsbD k = false := by
  have aboveI : ¬ k < 5 ∧ ¬ k - 5 < 1 ∧ ¬ k - 5 - 1 < 1 ∧ ¬ k - 5 - 1 - 1 < 1 := by omega
  have belowV : k - 5 - 1 - 1 - 1 < 20 := by omega
  simp only [StatusRegister.save, BitVec.getLsbD_append, aboveI, belowV, if_true, if_false, BitVec.getLsbD_zero]

/-- The loaded mode code is the low five bits of the word, as a number. -/
theorem StatusRegister.load_m_toNat (word : Word) : (StatusRegister.load word).m.toNat = word.toNat % 32 := by
  simp [StatusRegister.load, BitVec.extractLsb'_toNat]

/-- Words that agree outside bits 27:8 load the same fields. -/
theorem StatusRegister.load_congr {word word' : Word}
    (h : ∀ k, k < 8 ∨ 28 ≤ k → word.getLsbD k = word'.getLsbD k) :
    StatusRegister.load word = StatusRegister.load word' := by
  have hm : word.extractLsb' 0 5 = word'.extractLsb' 0 5 :=
    BitVec.eq_of_getLsbD_eq fun k hk => by
      simp only [BitVec.getLsbD_extractLsb', Nat.zero_add, h k (by omega)]
  unfold StatusRegister.load
  rw [hm, h 5 (by decide), h 6 (by decide), h 7 (by decide), h 28 (by decide), h 29 (by decide), h 30 (by decide),
    h 31 (by decide)]

/-- The CPU core's `load` call always answers, with the loaded state. -/
@[simp] theorem callCore_load (s : State) (word : Word) : callCore (.load word) s = .next (s.load word) := rfl

/-- Settles O3: `load` is determined by the bits outside 27:8, and `save` puts zeros there. -/
theorem reservedBitsAreNotState : Obligations.ReservedBitsAreNotState := by
  refine ⟨fun s word word' h => ?_, fun s k hlo hhi => s.sr.getLsbD_save_reserved hlo hhi⟩
  rw [State.load, State.load, StatusRegister.load_congr h]

/-- Settles O4: a flag, mask or width bit is the one `load` reads back into its field; the other two ranges are the reserved
bits and the mode code. -/
theorem saveLaysOutEveryField : Obligations.SaveLaysOutEveryField := by
  intro s k hk
  have back : StatusRegister.load s.save = s.sr := s.sr.load_save
  split_ifs with h31 h30 h29 h28 hreserved h7 h6 h5
  · exact h31 ▸ congrArg StatusRegister.n back
  · exact h30 ▸ congrArg StatusRegister.z back
  · exact h29 ▸ congrArg StatusRegister.c back
  · exact h28 ▸ congrArg StatusRegister.v back
  · exact s.sr.getLsbD_save_reserved hreserved (by omega)
  · exact h7 ▸ congrArg StatusRegister.i back
  · exact h6 ▸ congrArg StatusRegister.f back
  · exact h5 ▸ congrArg StatusRegister.w back
  · exact s.sr.getLsbD_save_of_lt (by omega)

/-- Settles O1: the call answers `s.load word`, whose fields are the named bits; registers, memory, `pc` and event are those of
`s` by the record update. -/
theorem loadWritesEveryField : Obligations.LoadWritesEveryField := fun s word =>
  ⟨s.load word, callCore_load s word, rfl, rfl, rfl, rfl, rfl, rfl, rfl, StatusRegister.load_m_toNat word,
    fun _ => rfl, fun _ => rfl, s.load_pc word, s.load_event word⟩

end Sys2Proof.Machine
end

