-- ==== Sys2Proof/Proofs/Fetch.lean ====
section
/-! SUPPORT. Fetching (R43, R60): the number an instruction word makes of its two bytes. -/

namespace Sys2Proof.Machine

/-- R60 in numbers: the low byte counts once, the high byte 256 times. -/
theorem wordOfBytes_toNat (lo8 hi8 : Byte) : (wordOfBytes lo8 hi8).toNat = lo8.toNat + 256 * hi8.toNat := by
  rw [wordOfBytes, BitVec.toNat_append, ← Nat.shiftLeft_add_eq_or_of_lt lo8.isLt, Nat.shiftLeft_eq]
  omega

/-- Settles O11: the address that is `(pc + 1) mod 2^32` as a number is the word `pc + 1` from which `fetch` takes the high
byte. -/
theorem fetchIsLittleEndian : Obligations.FetchIsLittleEndian := by
  intro s pc hi hhi
  have hi_eq : hi = pc + 1 := BitVec.eq_of_toNat_eq (hhi.trans (BitVec.toNat_add pc 1).symm)
  rw [hi_eq, State.fetch, wordOfBytes_toNat]

end Sys2Proof.Machine
end

