-- ==== Sys2Proof/Proofs/EncodeDecode.lean ====
section
/-! SUPPORT. The encoder puts back the bits the decoder took: the fields of each format (R61 to R69), joined from the top, are
the word, and so encoding what a word decodes to gives the word. -/

namespace Sys2Proof

/-! ### The formats: their fields, joined, are the word -/

/-- A one-bit field is its bit. -/
theorem ofBool_getLsbD_eq_extractLsb' (w : Half) (k : Nat) : BitVec.ofBool (w.getLsbD k) = w.extractLsb' k 1 := by
  rw [BitVec.getLsbD_eq_extractLsb']
  generalize w.extractLsb' k 1 = b
  revert b
  decide

/-- Format SH (R62). -/
theorem append_fields_shift (w : Half) : fieldSel w ++ fieldImm5 w ++ fieldRs w ++ fieldRd w = w := by
  simp only [fieldSel, fieldImm5, fieldRs, fieldRd, BitVec.extractLsb'_append_extractLsb'_eq_extractLsb',
    BitVec.extractLsb'_eq_self, -Nat.reduceAdd]

/-- Format AS (R63). -/
theorem append_fields_addSub (w : Half) :
    fieldSel w ++ BitVec.ofBool (fieldBit10 w) ++ BitVec.ofBool (fieldBit9 w) ++ fieldRn w ++ fieldRs w ++ fieldRd w = w := by
  simp only [fieldSel, fieldBit10, fieldBit9, ofBool_getLsbD_eq_extractLsb', fieldRn, fieldRs, fieldRd,
    BitVec.extractLsb'_append_extractLsb'_eq_extractLsb', BitVec.extractLsb'_eq_self, -Nat.reduceAdd]

/-- Format I8 (R64). -/
theorem append_fields_imm8 (w : Half) : fieldSel w ++ fieldRd8 w ++ fieldImm8 w = w := by
  simp only [fieldSel, fieldRd8, fieldImm8, BitVec.extractLsb'_append_extractLsb'_eq_extractLsb',
    BitVec.extractLsb'_eq_self, -Nat.reduceAdd]

/-- Format ALU (R65). -/
theorem append_fields_alu (w : Half) :
    fieldSel w ++ BitVec.ofBool (fieldBit10 w) ++ fieldOp w ++ fieldRs w ++ fieldRd w = w := by
  simp only [fieldSel, fieldBit10, ofBool_getLsbD_eq_extractLsb', fieldOp, fieldRs, fieldRd,
    BitVec.extractLsb'_append_extractLsb'_eq_extractLsb', BitVec.extractLsb'_eq_self, -Nat.reduceAdd]

/-- Format HR (R66). -/
theorem append_fields_hiReg (w : Half) : fieldSel w ++ BitVec.ofBool (fieldBit10 w) ++ fieldPayload 10 w = w := by
  simp only [fieldSel, fieldBit10, ofBool_getLsbD_eq_extractLsb', fieldPayload,
    BitVec.extractLsb'_append_extractLsb'_eq_extractLsb', BitVec.extractLsb'_eq_self, -Nat.reduceAdd]

/-- Format XR (R67). -/
theorem append_fields_regOffset (w : Half) :
    fieldSel w ++ BitVec.ofBool (fieldBit10 w) ++ BitVec.ofBool (fieldBit9 w) ++ fieldPayload 9 w = w := by
  simp only [fieldSel, fieldBit10, fieldBit9, ofBool_getLsbD_eq_extractLsb', fieldPayload,
    BitVec.extractLsb'_append_extractLsb'_eq_extractLsb', BitVec.extractLsb'_eq_self, -Nat.reduceAdd]

/-- Format X (R67). -/
theorem append_fields_payload (w : Half) : fieldSel w ++ fieldPayload 11 w = w := by
  simp only [fieldSel, fieldPayload, BitVec.extractLsb'_append_extractLsb'_eq_extractLsb',
    BitVec.extractLsb'_eq_self, -Nat.reduceAdd]

/-! ### The groups that split a selector -/

/-- Selector 0x03 (R78): bits 10 and 9 are the encoder's. -/
theorem encode_decodeAddSub {w : Half} (hsel : fieldSel w = 0b00011#5) : encode (decodeAddSub w) = w := by
  refine Eq.trans ?_ (append_fields_addSub w)
  rw [hsel, decodeAddSub]
  cases fieldBit10 w <;> cases fieldBit9 w <;> rfl

/-- The ALU class (R84): the sub-opcode is the encoder's. -/
theorem encode_decodeAlu (w : Half) :
    encode (decodeAlu w) = 0b01000#5 ++ 0#1 ++ fieldOp w ++ fieldRs w ++ fieldRd w := by
  unfold decodeAlu
  obtain ⟨k, hk⟩ := fieldOp w
  interval_cases k <;> rfl

/-- Selector 0x08 (R83). -/
theorem encode_decodeSel08 {w : Half} (hsel : fieldSel w = 0b01000#5) : encode (decodeSel08 w) = w := by
  have halu := append_fields_alu w
  have hhi := append_fields_hiReg w
  rw [hsel] at halu hhi
  unfold decodeSel08
  cases h10 : fieldBit10 w <;> rw [h10] at halu hhi
  · exact (encode_decodeAlu w).trans halu
  · exact hhi

/-- Selector 0x0A (R86): bits 10 and 9 are the encoder's. -/
theorem encode_decodeSel0A {w : Half} (hsel : fieldSel w = 0b01010#5) : encode (decodeSel0A w) = w := by
  refine Eq.trans ?_ (append_fields_regOffset w)
  rw [hsel, decodeSel0A]
  cases fieldBit10 w <;> cases fieldBit9 w <;> rfl

/-- Selector 0x0B (R87): bits 10 and 9 are the encoder's. -/
theorem encode_decodeSel0B {w : Half} (hsel : fieldSel w = 0b01011#5) : encode (decodeSel0B w) = w := by
  refine Eq.trans ?_ (append_fields_regOffset w)
  rw [hsel, decodeSel0B]
  cases fieldBit10 w <;> cases fieldBit9 w <;> rfl

/-- Selector 0x16 (R97): the bits compared stand in the encoding of the form that matches. -/
theorem encode_decodeSel16 {w : Half} (hsel : fieldSel w = 0b10110#5) : encode (decodeSel16 w) = w := by
  unfold decodeSel16
  split_ifs with haddSp hpush <;> rw [encode, ← hsel]
  · rw [← haddSp]
    simp only [fieldSel, fieldPayload, BitVec.extractLsb'_append_extractLsb'_eq_extractLsb',
      BitVec.extractLsb'_eq_self, -Nat.reduceAdd]
  · rw [← hpush]
    simp only [fieldSel, fieldPayload, BitVec.extractLsb'_append_extractLsb'_eq_extractLsb',
      BitVec.extractLsb'_eq_self, -Nat.reduceAdd]
  · exact append_fields_payload w

/-- Bits of a field are bits of the word. -/
theorem extractLsb'_extractLsb' (w : Half) {t m s n : Nat} (h : s + n ≤ m) :
    (w.extractLsb' t m).extractLsb' s n = w.extractLsb' (t + s) n := by
  apply BitVec.eq_of_getLsbD_eq
  intro k hk
  have : s + k < m := by omega
  simp [hk, this, Nat.add_assoc]

/-- The conditional branch of selectors 0x1A and 0x1B (R101, R102): the first payload bit is the selector's last. -/
theorem encode_bCond {w : Half} (hsel : fieldSel w = 0b11010#5 ∨ fieldSel w = 0b11011#5) :
    encode (.bCond (fieldPayload 12 w)) = w := by
  have top : w.extractLsb' 12 4 = 0b1101#4 := by
    have : (fieldSel w).extractLsb' 1 4 = w.extractLsb' 12 4 := extractLsb'_extractLsb' w (by decide)
    rcases hsel with h | h <;> rw [← this, h] <;> rfl
  rw [encode, ← top]
  simp only [fieldPayload, BitVec.extractLsb'_append_extractLsb'_eq_extractLsb', BitVec.extractLsb'_eq_self,
    -Nat.reduceAdd]

/-- Selector 0x1B (R102): of the four bits compared the selector holds the first. -/
theorem encode_decodeSel1B {w : Half} (hsel : fieldSel w = 0b11011#5) : encode (decodeSel1B w) = w := by
  unfold decodeSel1B
  split_ifs with hswi
  · have low : w.extractLsb' 8 3 = 0b111#3 := by
      have : (w.extractLsb' 8 4).extractLsb' 0 3 = w.extractLsb' 8 3 := extractLsb'_extractLsb' w (by decide)
      rw [← this, hswi]
      rfl
    rw [encode, ← hsel, ← low]
    simp only [fieldSel, fieldPayload, BitVec.extractLsb'_append_extractLsb'_eq_extractLsb',
      BitVec.extractLsb'_eq_self, -Nat.reduceAdd]
  · exact encode_bCond (.inr hsel)

/-! ### Every word -/

/-- The selector, from its number. -/
theorem fieldSel_eq {w : Half} {k : Nat} (h : (fieldSel w).toNat = k) : fieldSel w = BitVec.ofNat 5 k := by
  rw [← h, BitVec.ofNat_toNat, BitVec.setWidth_eq]

/-- No bit of a word is dropped: encoding what it decodes to gives it back (R107, R160). -/
theorem encode_decodeWord (w : Half) : encode (decodeWord w) = w := by
  have shift {k : Nat} (h : (fieldSel w).toNat = k) :
      BitVec.ofNat 5 k ++ fieldImm5 w ++ fieldRs w ++ fieldRd w = w := fieldSel_eq h ▸ append_fields_shift w
  have imm8 {k : Nat} (h : (fieldSel w).toNat = k) :
      BitVec.ofNat 5 k ++ fieldRd8 w ++ fieldImm8 w = w := fieldSel_eq h ▸ append_fields_imm8 w
  have payload {k : Nat} (h : (fieldSel w).toNat = k) :
      BitVec.ofNat 5 k ++ fieldPayload 11 w = w := fieldSel_eq h ▸ append_fields_payload w
  unfold decodeWord
  split
  case h_1 h | h_2 h | h_3 h => exact shift h
  case h_4 h => exact encode_decodeAddSub (fieldSel_eq h)
  case h_5 h | h_6 h | h_7 h | h_8 h => exact imm8 h
  case h_9 h => exact encode_decodeSel08 (fieldSel_eq h)
  case h_11 h => exact encode_decodeSel0A (fieldSel_eq h)
  case h_12 h => exact encode_decodeSel0B (fieldSel_eq h)
  case h_23 h => exact encode_decodeSel16 (fieldSel_eq h)
  case h_27 h => exact encode_bCond (.inl (fieldSel_eq h))
  case h_28 h => exact encode_decodeSel1B (fieldSel_eq h)
  case h_32 =>
    have : (fieldSel w).toNat = 0x1F := by
      have := (fieldSel w).isLt
      simp only [imp_false] at *
      omega
    exact payload this
  all_goals exact payload ‹_›

end Sys2Proof

namespace Sys2Proof.Machine

/-- Settles O14: the instruction is what the word of the two bytes decodes to, and its encoding is that word. -/
theorem everyInstructionIsOneWord : Obligations.EveryInstructionIsOneWord := by
  intro lo hi rest
  refine ⟨decodeWord (wordOfBytes lo hi), rfl, ?_⟩
  rw [encode_decodeWord, wordOfBytes_toNat]

end Sys2Proof.Machine
end

