-- ==== Sys2Proof/Proofs/Selectors.lean ====
section
/-! SUPPORT. Routing by the whole selector (R88 to R95, R99, R100, R103 to R106): the fields as arithmetic on the word, and the
reports of the branch and of the undefined instruction. -/

namespace Sys2Proof.Machine

/-- The selector (R61) counts the multiples of 2048. -/
theorem fieldSel_toNat (w : Half) : (fieldSel w).toNat = w.toNat / 2048 := by
  have := w.isLt
  rw [fieldSel, BitVec.extractLsb'_toNat, Nat.shiftRight_eq_div_pow]
  omega

/-- The payload is the low bits of the word as a number. -/
theorem fieldPayload_eq_ofNat (n : Nat) (w : Half) : fieldPayload n w = BitVec.ofNat n w.toNat := rfl

/-- Settles O17: the selector's number chooses the arm of `decodeWord`. -/
theorem wholeSelectorStubsRoute : Obligations.WholeSelectorStubsRoute := by
  intro w
  and_intros
  all_goals
    intro hsel
    simp only [decodeWord, fieldSel_toNat, hsel, fieldPayload_eq_ofNat]

/-- Executing the branch is the report of a stub (R161, R188). -/
theorem exec_b (payload : BitVec 11) (s : State) : exec (.b payload) s = .next (s.reportStub (.b payload)) := rfl

/-- Executing the undefined instruction is the report of its word (R196). -/
theorem exec_undefined (payload : BitVec 11) (s : State) :
    exec (.undefined payload) s = .next (s.raise (.evUndefined (encode (.undefined payload)) s.pc)) := rfl

/-- The event of a stub's report is never `EV_UNDEFINED` (R201). -/
theorem State.reportStub_event_code (s : State) (i : Instr) : (s.reportStub i).event.code = 3 := rfl

/-- Settles O18: the selector chooses the arm, the branch reports as a stub, and the word reported by the undefined instruction
is the one decoded because the encoder gives it back. -/
theorem branchNeverFallsIntoUndefined : Obligations.BranchNeverFallsIntoUndefined := by
  intro w s
  constructor <;> intro hsel
  · have hdec : decodeWord w = .b (BitVec.ofNat 11 w.toNat) := by
      simp only [decodeWord, fieldSel_toNat, hsel, fieldPayload_eq_ofNat]
    have hexec : exec (decodeWord w) s = .next (s.reportStub (.b (BitVec.ofNat 11 w.toNat))) := by
      rw [hdec, exec_b]
    exact ⟨hdec, _, hexec, by rw [State.reportStub_event_code]; decide⟩
  · have hdec : decodeWord w = .undefined (BitVec.ofNat 11 w.toNat) := by
      simp only [decodeWord, fieldSel_toNat, hsel, fieldPayload_eq_ofNat]
    have hexec : exec (decodeWord w) s = .next (s.raise (.evUndefined w s.pc)) := by
      rw [hdec, exec_undefined, ← hdec, encode_decodeWord]
    exact ⟨hdec, _, hexec, s.raise_event _⟩

end Sys2Proof.Machine
end

