-- ==== Sys2Proof/Proofs/AluOperations.lean ====
section
/-! SUPPORT. The ALU class (R65, R83, R84, R141 to R157): decoding a word joined from the fields of format ALU, and what
retiring a logical operation or a multiplication leaves. -/

namespace Sys2Proof

/-! ### Format ALU: each field, taken from the joined word (the other way round: `append_fields_alu`) -/

@[simp] theorem fieldSel_append_alu (sel : BitVec 5) (b : BitVec 1) (op : BitVec 4) (rs rd : RegIdx) :
    fieldSel (sel ++ b ++ op ++ rs ++ rd) = sel := by
  simp only [fieldSel, BitVec.extractLsb'_append_eq_of_le, Nat.reduceLeDiff, Nat.reduceSub]
  exact BitVec.extractLsb'_eq_self

@[simp] theorem fieldBit10_append_alu (sel : BitVec 5) (b : BitVec 1) (op : BitVec 4) (rs rd : RegIdx) :
    fieldBit10 (sel ++ b ++ op ++ rs ++ rd) = b.getLsbD 0 := by
  simp only [fieldBit10, BitVec.getLsbD_append, Nat.reduceLT, Nat.reduceSub, if_true, if_false]

@[simp] theorem fieldOp_append_alu (sel : BitVec 5) (b : BitVec 1) (op : BitVec 4) (rs rd : RegIdx) :
    fieldOp (sel ++ b ++ op ++ rs ++ rd) = op := by
  simp only [fieldOp, BitVec.extractLsb'_append_eq_of_le, Nat.reduceLeDiff, Nat.reduceSub]
  exact BitVec.extractLsb'_append_eq_right

@[simp] theorem fieldRs_append_alu (sel : BitVec 5) (b : BitVec 1) (op : BitVec 4) (rs rd : RegIdx) :
    fieldRs (sel ++ b ++ op ++ rs ++ rd) = rs := by
  simp only [fieldRs, BitVec.extractLsb'_append_eq_of_le, Nat.reduceLeDiff, Nat.reduceSub]
  exact BitVec.extractLsb'_append_eq_right

@[simp] theorem fieldRd_append_alu (sel : BitVec 5) (b : BitVec 1) (op : BitVec 4) (rs rd : RegIdx) :
    fieldRd (sel ++ b ++ op ++ rs ++ rd) = rd :=
  BitVec.extractLsb'_append_eq_right

/-- A word of selector 0x08 with bit 10 clear is of the ALU class (R83). -/
theorem decodeWord_eq_decodeAlu {w : Half} (hsel : fieldSel w = 0b01000#5) (h10 : fieldBit10 w = false) :
    decodeWord w = decodeAlu w := by
  rw [decodeWord, hsel]
  change decodeSel08 w = decodeAlu w
  rw [decodeSel08, h10]

/-- The joined word decodes to the form that the ALU class gives its sub-opcode, on the registers joined. -/
theorem decodeWord_append_alu {op : BitVec 4} {form : RegIdx → RegIdx → Instr}
    (hform : ∀ w, fieldOp w = op → decodeAlu w = form (fieldRs w) (fieldRd w)) (rs rd : RegIdx) :
    decodeWord (0b01000#5 ++ 0#1 ++ op ++ rs ++ rd) = form rs rd := by
  rw [decodeWord_eq_decodeAlu (fieldSel_append_alu ..) (fieldBit10_append_alu ..), hform _ (fieldOp_append_alu ..),
    fieldRs_append_alu, fieldRd_append_alu]

end Sys2Proof

namespace Sys2Proof.Machine

/-! ### What the logical operations and the multiplication execute to -/

/-- The conjunction (R141). -/
theorem exec_aluAnd (rs rd : RegIdx) (s : State) :
    exec (.aluAnd rs rd) s = .next (s.writeResult rd (logicOut s.sr (s.x rd &&& s.x rs))) := rfl

/-- The exclusive or (R142). -/
theorem exec_aluEor (rs rd : RegIdx) (s : State) :
    exec (.aluEor rs rd) s = .next (s.writeResult rd (logicOut s.sr (s.x rd ^^^ s.x rs))) := rfl

/-- The test: flags alone (R149). -/
theorem exec_aluTst (rs rd : RegIdx) (s : State) :
    exec (.aluTst rs rd) s = .next (s.writeFlags (logicOut s.sr (s.x rd &&& s.x rs))) := rfl

/-- The disjunction (R153). -/
theorem exec_aluOrr (rs rd : RegIdx) (s : State) :
    exec (.aluOrr rs rd) s = .next (s.writeResult rd (logicOut s.sr (s.x rd ||| s.x rs))) := rfl

/-- The multiplication (R154). -/
theorem exec_aluMul (rs rd : RegIdx) (s : State) :
    exec (.aluMul rs rd) s = .next (s.writeResult rd (mulOut s.sr (s.x rd) (s.x rs))) := rfl

/-- The bit clear (R155). -/
theorem exec_aluBic (rs rd : RegIdx) (s : State) :
    exec (.aluBic rs rd) s = .next (s.writeResult rd (logicOut s.sr (s.x rd &&& ~~~(s.x rs)))) := rfl

/-- The complement (R156). -/
theorem exec_aluMvn (rs rd : RegIdx) (s : State) :
    exec (.aluMvn rs rd) s = .next (s.writeResult rd (logicOut s.sr (~~~(s.x rs)))) := rfl

/-! ### What retiring leaves -/

/-- Retiring a result beside its own N and Z leaves them so (R113). -/
theorem State.writeResult_NZOf (s : State) (rd : RegIdx) (sr : StatusRegister) (r : Word) :
    NZOf ((s.writeResult rd (r, setNZ sr r)).x rd) (s.writeResult rd (r, setNZ sr r)) := by
  rw [State.writeResult_x, if_pos rfl]
  exact ⟨rfl, rfl⟩

/-- Z of a word: all its bits are clear. -/
theorem beq_zero_iff_getLsbD (r : Word) : (r == 0#32) = true ↔ ∀ k, k < 32 → r.getLsbD k = false := by
  rw [beq_iff_eq, BitVec.eq_of_getLsbD_eq_iff]
  simp only [BitVec.getLsbD_zero]

/-- Word multiplication keeps the low 32 bits of the product (R154). -/
theorem mulOut_fst_toNat (sr : StatusRegister) (a b : Word) :
    (mulOut sr a b).1.toNat = a.toNat * b.toNat % 2 ^ 32 := BitVec.toNat_mul a b

/-- An instruction that retires a logical result writes its bits to `x[rd]`, N and Z from it, and nothing else. -/
theorem logical_effect {i : Instr} {s : State} {rd : RegIdx} {r : Word} {bit : Nat → Bool}
    (hexec : exec i s = .next (s.writeResult rd (logicOut s.sr r))) (hbit : ∀ k, k < 32 → r.getLsbD k = bit k) :
    ∃ t, exec i s = .next t ∧ (∀ k, k < 32 → (t.x rd).getLsbD k = bit k) ∧
      NZOf (t.x rd) t ∧ t.sr.c = s.sr.c ∧ t.sr.v = s.sr.v ∧ SameRegsBut rd s t ∧ Retired s t := by
  obtain ⟨hrd, hframe⟩ := s.writeResult_frame rd (logicOut s.sr r) (logicOut_control s.sr r)
  exact ⟨_, hexec, by rwa [hrd], s.writeResult_NZOf rd s.sr r, rfl, rfl, hframe⟩

/-- Settles O38: each sub-opcode names its form, and each form retires the logical result of `x[rd]` and `x[rs]`, whose bits
the word operations give. -/
theorem logicalOperationsWorkBitByBit : Obligations.LogicalOperationsWorkBitByBit := by
  intro rs rd s
  refine ⟨decodeWord_append_alu ?_ rs rd, logical_effect (exec_aluAnd rs rd s) fun _ _ => BitVec.getLsbD_and,
    decodeWord_append_alu ?_ rs rd, logical_effect (exec_aluEor rs rd s) fun _ _ => ?xor,
    decodeWord_append_alu ?_ rs rd, logical_effect (exec_aluOrr rs rd s) fun _ _ => BitVec.getLsbD_or,
    decodeWord_append_alu ?_ rs rd, logical_effect (exec_aluBic rs rd s) fun _ hk => ?andNot,
    decodeWord_append_alu ?_ rs rd, logical_effect (exec_aluMvn rs rd s) fun _ hk => ?not⟩
  case xor => rw [BitVec.getLsbD_xor, Bool.bne_eq_xor]
  case andNot => simp [hk]
  case not => simp [hk]
  all_goals
    intro w hop
    rw [decodeAlu, hop]
    rfl

/-- Settles O39: the flags are those of the conjunction, whose bits are the conjunctions of bits; no register is written. -/
theorem tstSetsNAndZOnly : Obligations.TstSetsNAndZOnly := by
  intro rs rd s
  have hz := beq_zero_iff_getLsbD (s.x rd &&& s.x rs)
  simp only [BitVec.getLsbD_and] at hz
  exact ⟨decodeWord_append_alu (fun w hop => by rw [decodeAlu, hop]; rfl) rs rd, _, exec_aluTst rs rd s,
    BitVec.getLsbD_and, hz, rfl, rfl, s.writeFlags_frame _ (logicOut_control s.sr _)⟩

/-- Settles O46: the form retires `mulOut`, which keeps the low 32 bits of the product, writes C with 0 and leaves V. -/
theorem mulKeepsTheLowWordAndClearsCarry : Obligations.MulKeepsTheLowWordAndClearsCarry := by
  intro rs rd s
  obtain ⟨hrd, hframe⟩ := s.writeResult_frame rd (mulOut s.sr (s.x rd) (s.x rs)) (mulOut_control s.sr _ _)
  exact ⟨decodeWord_append_alu (fun w hop => by rw [decodeAlu, hop]; rfl) rs rd, _, exec_aluMul rs rd s,
    by rw [hrd, mulOut_fst_toNat], rfl, s.writeResult_NZOf rd _ _, rfl, hframe⟩

end Sys2Proof.Machine
end

