-- ==== Sys2Proof/Proofs/Undefined.lean ====
section
/-! SUPPORT. Format X joined from its two fields (R67), and the undefined-instruction trap (R196). -/

namespace Sys2Proof

/-! ### Format X: each field, taken from the joined word (the other way round: `append_fields_payload`) -/

@[simp] theorem fieldSel_append_payload (sel : BitVec 5) (p : BitVec 11) : fieldSel (sel ++ p) = sel :=
  BitVec.extractLsb'_append_eq_left

@[simp] theorem fieldPayload_append_payload (sel : BitVec 5) (p : BitVec 11) : fieldPayload 11 (sel ++ p) = p :=
  BitVec.extractLsb'_append_eq_right

/-- A word of format X as a number: the selector counts 2048 times, the payload once. -/
theorem append_payload_eq_ofNat (sel : BitVec 5) (p : BitVec 11) :
    sel ++ p = BitVec.ofNat 16 (2048 * sel.toNat + p.toNat) := by
  apply BitVec.eq_of_toNat_eq
  have hsum : (sel ++ p).toNat = 2048 * sel.toNat + p.toNat := by
    rw [BitVec.toNat_append, ← Nat.shiftLeft_add_eq_or_of_lt p.isLt, Nat.shiftLeft_eq, Nat.mul_comm]
  rw [BitVec.toNat_ofNat, ← hsum, Nat.mod_eq_of_lt (sel ++ p).isLt]

/-- Every word of selector 0x1D is the undefined instruction with its payload (R104). -/
theorem decodeWord_append_undefined (p : BitVec 11) : decodeWord (0b11101#5 ++ p) = .undefined p := by
  rw [decodeWord, fieldSel_append_payload]
  exact congrArg Instr.undefined (fieldPayload_append_payload _ p)

/-- The word of the undefined instruction as a number (R104). -/
theorem encode_undefined (p : BitVec 11) : encode (.undefined p) = BitVec.ofNat 16 (0xE800 + p.toNat) :=
  append_payload_eq_ofNat 0b11101#5 p

end Sys2Proof

namespace Sys2Proof.Machine

/-- Settles O50: executing the undefined instruction is `raise` of its own encoding, which is the word decoded. -/
theorem undefinedReportsItsWord : Obligations.UndefinedReportsItsWord := by
  intro p s
  refine ⟨decodeWord_append_undefined p, _, exec_undefined p s, ?_⟩
  rw [encode_undefined]
  exact s.raise_reportedOnly _

end Sys2Proof.Machine
end

