-- ==== Sys2Proof/Proofs/DecodeEncode.lean ====
section
/-! SUPPORT. The decoder takes back the fields the encoder joined (R62 to R69), so on well-formed instructions decoding undoes
encoding; with `encode_decodeWord` the two are inverse to each other. -/

namespace Sys2Proof

/-! ### The formats: decoding a word joined from its fields (format ALU: `decodeWord_append_alu`) -/

/-- Format SH (R62). -/
theorem decodeWord_append_shift {sel : BitVec 5} {form : BitVec 5 → RegIdx → RegIdx → Instr}
    (hform : ∀ w, fieldSel w = sel → decodeWord w = form (fieldImm5 w) (fieldRs w) (fieldRd w))
    (imm5 : BitVec 5) (rs rd : RegIdx) : decodeWord (sel ++ imm5 ++ rs ++ rd) = form imm5 rs rd := by
  have hsel : fieldSel (sel ++ imm5 ++ rs ++ rd) = sel := by
    simp only [fieldSel, BitVec.extractLsb'_append_eq_of_le, Nat.reduceLeDiff, Nat.reduceSub, BitVec.extractLsb'_eq_self]
  rw [hform _ hsel]
  simp only [fieldImm5, fieldRs, fieldRd, BitVec.extractLsb'_append_eq_of_le, Nat.reduceLeDiff, Nat.reduceSub,
    BitVec.extractLsb'_append_eq_right]

/-- Format AS (R63, R78): bits 10 and 9 pick the form. -/
theorem decodeWord_append_addSub {b10 b9 : BitVec 1} {form : RegIdx → RegIdx → RegIdx → Instr}
    (hform : ∀ w, fieldBit10 w = b10.getLsbD 0 → fieldBit9 w = b9.getLsbD 0 →
      decodeAddSub w = form (fieldRn w) (fieldRs w) (fieldRd w))
    (rn rs rd : RegIdx) : decodeWord (0b00011#5 ++ b10 ++ b9 ++ rn ++ rs ++ rd) = form rn rs rd := by
  have hsel : fieldSel (0b00011#5 ++ b10 ++ b9 ++ rn ++ rs ++ rd) = 0b00011#5 := by
    simp only [fieldSel, BitVec.extractLsb'_append_eq_of_le, Nat.reduceLeDiff, Nat.reduceSub, BitVec.extractLsb'_eq_self]
  have h10 : fieldBit10 (0b00011#5 ++ b10 ++ b9 ++ rn ++ rs ++ rd) = b10.getLsbD 0 := by
    simp only [fieldBit10, BitVec.getLsbD_append, Nat.reduceLT, Nat.reduceSub, if_true, if_false]
  have h9 : fieldBit9 (0b00011#5 ++ b10 ++ b9 ++ rn ++ rs ++ rd) = b9.getLsbD 0 := by
    simp only [fieldBit9, BitVec.getLsbD_append, Nat.reduceLT, Nat.reduceSub, if_true, if_false]
  rw [decodeWord, hsel]
  refine (hform _ h10 h9).trans ?_
  simp only [fieldRn, fieldRs, fieldRd, BitVec.extractLsb'_append_eq_of_le, Nat.reduceLeDiff, Nat.reduceSub,
    BitVec.extractLsb'_append_eq_right]

/-- Format I8 (R64). -/
theorem decodeWord_append_imm8 {sel : BitVec 5} {form : RegIdx → BitVec 8 → Instr}
    (hform : ∀ w, fieldSel w = sel → decodeWord w = form (fieldRd8 w) (fieldImm8 w))
    (rd : RegIdx) (imm8 : BitVec 8) : decodeWord (sel ++ rd ++ imm8) = form rd imm8 := by
  have hsel : fieldSel (sel ++ rd ++ imm8) = sel := by
    simp only [fieldSel, BitVec.extractLsb'_append_eq_of_le, Nat.reduceLeDiff, Nat.reduceSub, BitVec.extractLsb'_eq_self]
  rw [hform _ hsel]
  simp only [fieldRd8, fieldImm8, BitVec.extractLsb'_append_eq_of_le, Nat.reduceLeDiff, Nat.reduceSub,
    BitVec.extractLsb'_append_eq_right]

/-- Format HR (R66, R83). -/
theorem decodeWord_append_hiReg (p : BitVec 10) : decodeWord (0b01000#5 ++ 1#1 ++ p) = .hiRegOp p := by
  have hsel : fieldSel (0b01000#5 ++ 1#1 ++ p) = 0b01000#5 := by
    simp only [fieldSel, BitVec.extractLsb'_append_eq_of_le, Nat.reduceLeDiff, Nat.reduceSub, BitVec.extractLsb'_eq_self]
  have h10 : fieldBit10 (0b01000#5 ++ 1#1 ++ p) = true := by
    simp only [fieldBit10, BitVec.getLsbD_append, Nat.reduceLT, Nat.reduceSub, if_true, if_false]
    rfl
  rw [decodeWord, hsel]
  change decodeSel08 _ = _
  rw [decodeSel08, h10]
  exact congrArg Instr.hiRegOp BitVec.extractLsb'_append_eq_right

/-- Format XR (R67, R86, R87): bits 10 and 9 pick the form. -/
theorem decodeWord_append_regOffset {sel : BitVec 5} {b10 b9 : BitVec 1} {form : BitVec 9 → Instr}
    (hform : ∀ w, fieldSel w = sel → fieldBit10 w = b10.getLsbD 0 → fieldBit9 w = b9.getLsbD 0 →
      decodeWord w = form (fieldPayload 9 w))
    (p : BitVec 9) : decodeWord (sel ++ b10 ++ b9 ++ p) = form p := by
  have hsel : fieldSel (sel ++ b10 ++ b9 ++ p) = sel := by
    simp only [fieldSel, BitVec.extractLsb'_append_eq_of_le, Nat.reduceLeDiff, Nat.reduceSub, BitVec.extractLsb'_eq_self]
  have h10 : fieldBit10 (sel ++ b10 ++ b9 ++ p) = b10.getLsbD 0 := by
    simp only [fieldBit10, BitVec.getLsbD_append, Nat.reduceLT, Nat.reduceSub, if_true, if_false]
  have h9 : fieldBit9 (sel ++ b10 ++ b9 ++ p) = b9.getLsbD 0 := by
    simp only [fieldBit9, BitVec.getLsbD_append, Nat.reduceLT, Nat.reduceSub, if_true, if_false]
  rw [hform _ hsel h10 h9]
  exact congrArg form BitVec.extractLsb'_append_eq_right

/-- Format X (R67). -/
theorem decodeWord_append_payload {sel : BitVec 5} {form : BitVec 11 → Instr}
    (hform : ∀ w, fieldSel w = sel → decodeWord w = form (fieldPayload 11 w))
    (p : BitVec 11) : decodeWord (sel ++ p) = form p := by
  rw [hform _ (fieldSel_append_payload sel p), fieldPayload_append_payload]

/-! ### The selectors with a check: 0x16 (R97), 0x1A and 0x1B (R101, R102) -/

theorem decodeWord_eq_decodeSel16 {w : Half} (hsel : fieldSel w = 0b10110#5) : decodeWord w = decodeSel16 w := by
  rw [decodeWord, hsel]; rfl

/-- The bits that selector 0x16 compares are the payload's. -/
theorem decodeWord_append_undef16 {p : BitVec 11} (hp : undef16PayloadOk p = true) :
    decodeWord (0b10110#5 ++ p) = .undef16 p := by
  have hbits : p.extractLsb' 8 3 ≠ Config.sel16AddSpValue ∧ p.extractLsb' 9 2 ≠ Config.sel16PushValue := by
    simpa [undef16PayloadOk] using hp
  have h3 : (0b10110#5 ++ p).extractLsb' 8 3 = p.extractLsb' 8 3 := BitVec.extractLsb'_append_eq_of_add_le (by decide)
  have h2 : (0b10110#5 ++ p).extractLsb' 9 2 = p.extractLsb' 9 2 := BitVec.extractLsb'_append_eq_of_add_le (by decide)
  rw [decodeWord_eq_decodeSel16 (fieldSel_append_payload ..), decodeSel16, h3, h2, if_neg hbits.1, if_neg hbits.2,
    fieldPayload_append_payload]

theorem decodeWord_append_addSpOffset (p : BitVec 8) :
    decodeWord (0b10110#5 ++ Config.sel16AddSpValue ++ p) = .addSpOffset p := by
  have hsel : fieldSel (0b10110#5 ++ Config.sel16AddSpValue ++ p) = 0b10110#5 := by
    simp only [fieldSel, BitVec.extractLsb'_append_eq_of_le, Nat.reduceLeDiff, Nat.reduceSub, BitVec.extractLsb'_eq_self]
  have h3 : (0b10110#5 ++ Config.sel16AddSpValue ++ p).extractLsb' 8 3 = Config.sel16AddSpValue := by
    simp only [BitVec.extractLsb'_append_eq_of_le, Nat.reduceLeDiff, Nat.reduceSub, BitVec.extractLsb'_append_eq_right]
  rw [decodeWord_eq_decodeSel16 hsel, decodeSel16, if_pos h3]
  exact congrArg Instr.addSpOffset BitVec.extractLsb'_append_eq_right

/-- The push value has its top bit set, the other form's value has not. -/
theorem decodeWord_append_push (p : BitVec 9) : decodeWord (0b10110#5 ++ Config.sel16PushValue ++ p) = .push p := by
  have hsel : fieldSel (0b10110#5 ++ Config.sel16PushValue ++ p) = 0b10110#5 := by
    simp only [fieldSel, BitVec.extractLsb'_append_eq_of_le, Nat.reduceLeDiff, Nat.reduceSub, BitVec.extractLsb'_eq_self]
  have h2 : (0b10110#5 ++ Config.sel16PushValue ++ p).extractLsb' 9 2 = Config.sel16PushValue := by
    simp only [BitVec.extractLsb'_append_eq_of_le, Nat.reduceLeDiff, Nat.reduceSub, BitVec.extractLsb'_append_eq_right]
  have h3 : (0b10110#5 ++ Config.sel16PushValue ++ p).extractLsb' 8 3 ≠ Config.sel16AddSpValue := by
    intro h
    rw [← extractLsb'_extractLsb' (t := 8) (m := 3) (s := 1) _ (by decide), h] at h2
    exact absurd h2 (by decide)
  rw [decodeWord_eq_decodeSel16 hsel, decodeSel16, if_neg h3, if_pos h2]
  exact congrArg Instr.push BitVec.extractLsb'_append_eq_right

theorem decodeWord_append_swi (p : BitVec 8) : decodeWord (0b11011#5 ++ 0b111#3 ++ p) = .swi p := by
  have hsel : fieldSel (0b11011#5 ++ 0b111#3 ++ p) = 0b11011#5 := by
    simp only [fieldSel, BitVec.extractLsb'_append_eq_of_le, Nat.reduceLeDiff, Nat.reduceSub, BitVec.extractLsb'_eq_self]
  have h4 : (0b11011#5 ++ 0b111#3 ++ p).extractLsb' 8 4 = 0b1111#4 := by
    rw [BitVec.extractLsb'_append_eq_of_le (by decide)]; decide
  rw [decodeWord, hsel]
  change decodeSel1B _ = _
  rw [decodeSel1B, if_pos h4]
  exact congrArg Instr.swi BitVec.extractLsb'_append_eq_right

/-- The selector of a conditional branch ends with the payload's first bit: either of the two selectors (R101, R102). -/
theorem decodeWord_append_bCond {p : BitVec 12} (hp : bCondPayloadOk p = true) : decodeWord (0b1101#4 ++ p) = .bCond p := by
  have hpayload : fieldPayload 12 (0b1101#4 ++ p) = p := BitVec.extractLsb'_append_eq_right
  have hbits : (0b1101#4 ++ p).extractLsb' 8 4 ≠ 0b1111#4 := by
    rw [BitVec.extractLsb'_append_eq_of_add_le (by decide)]
    simpa [bCondPayloadOk] using hp
  have hsel : fieldSel (0b1101#4 ++ p) = 0b11010#5 ∨ fieldSel (0b1101#4 ++ p) = 0b11011#5 := by
    have top : (fieldSel (0b1101#4 ++ p)).extractLsb' 1 4 = 0b1101#4 :=
      (extractLsb'_extractLsb' _ (by decide)).trans BitVec.extractLsb'_append_eq_left
    generalize fieldSel (0b1101#4 ++ p) = sel at top
    revert sel
    decide
  rcases hsel with hsel | hsel <;> rw [decodeWord, hsel]
  · exact congrArg Instr.bCond hpayload
  · change decodeSel1B _ = _
    rw [decodeSel1B, if_neg hbits, hpayload]

/-! ### Every instruction, every word -/

/-- Decoding gives back every well-formed instruction (R107): by its format, and the check where its selector has one. -/
theorem decodeWord_encode (i : Instr) (hwf : i.wf = true) : decodeWord (encode i) = i := by
  cases i
  case lslImm | lsrImm | asrImm => exact decodeWord_append_shift (fun w hsel => by rw [decodeWord, hsel]; rfl) ..
  case addReg | subReg | addImm3 | subImm3 =>
    exact decodeWord_append_addSub (fun w h10 h9 => by rw [decodeAddSub, h10, h9]; rfl) ..
  case movImm8 | cmpImm8 | addImm8 | subImm8 =>
    exact decodeWord_append_imm8 (fun w hsel => by rw [decodeWord, hsel]; rfl) ..
  case hiRegOp => exact decodeWord_append_hiReg _
  case strReg | strhReg | strbReg | ldsbReg =>
    exact decodeWord_append_regOffset (fun w hsel h10 h9 => by
      rw [decodeWord, hsel]; change decodeSel0A w = _; rw [decodeSel0A, h10, h9]; rfl) _
  case ldrReg | ldrhReg | ldrbReg | ldshReg =>
    exact decodeWord_append_regOffset (fun w hsel h10 h9 => by
      rw [decodeWord, hsel]; change decodeSel0B w = _; rw [decodeSel0B, h10, h9]; rfl) _
  case addSpOffset => exact decodeWord_append_addSpOffset _
  case undef16 => exact decodeWord_append_undef16 hwf
  case push => exact decodeWord_append_push _
  case bCond => exact decodeWord_append_bCond hwf
  case swi => exact decodeWord_append_swi _
  case ldrPc | strImm | ldrImm | strbImm | ldrbImm | strhImm | ldrhImm | strSp | ldrSp | loadAddress14 | loadAddress15 |
      pop | stmia | ldmia | b | undefined | blLow | blHigh =>
    exact decodeWord_append_payload (fun w hsel => by rw [decodeWord, hsel]; rfl) _
  all_goals exact decodeWord_append_alu (fun w hop => by rw [decodeAlu, hop]; rfl) ..

/-- What is left of selector 0x16 after both comparisons failed is what UNDEF_16 admits. -/
theorem wf_decodeSel16 (w : Half) : (decodeSel16 w).wf = true := by
  unfold decodeSel16
  split_ifs with haddSp hpush
  · rfl
  · rfl
  · have h3 : (fieldPayload 11 w).extractLsb' 8 3 = w.extractLsb' 8 3 := extractLsb'_extractLsb' w (by decide)
    have h2 : (fieldPayload 11 w).extractLsb' 9 2 = w.extractLsb' 9 2 := extractLsb'_extractLsb' w (by decide)
    simp [Instr.wf, undef16PayloadOk, h3, h2, haddSp, hpush]

/-- B_COND admits the payload of every word whose bits 11:8 are not all set. -/
theorem wf_bCond_fieldPayload {w : Half} (h : w.extractLsb' 8 4 ≠ 0b1111#4) : (Instr.bCond (fieldPayload 12 w)).wf = true := by
  have h4 : (fieldPayload 12 w).extractLsb' 8 4 = w.extractLsb' 8 4 := extractLsb'_extractLsb' w (by decide)
  simp [Instr.wf, bCondPayloadOk, h4, h]

theorem wf_decodeSel1B (w : Half) : (decodeSel1B w).wf = true := by
  unfold decodeSel1B
  split_ifs with hswi
  · rfl
  · exact wf_bCond_fieldPayload hswi

/-- Under selector 0x1A bit 11 is clear. -/
theorem extractLsb'_ne_of_sel1A {w : Half} (hsel : fieldSel w = 0b11010#5) : w.extractLsb' 8 4 ≠ 0b1111#4 := by
  intro h
  have hbit : (fieldSel w).getLsbD 0 = (w.extractLsb' 8 4).getLsbD 3 := by simp [fieldSel]
  rw [hsel, h] at hbit
  exact absurd hbit (by decide)

/-- Every word decodes to a well-formed instruction (R107). -/
theorem wf_decodeWord (w : Half) : (decodeWord w).wf = true := by
  unfold decodeWord
  split
  case h_4 => unfold decodeAddSub; split <;> rfl
  case h_9 =>
    unfold decodeSel08
    split
    · unfold decodeAlu; split <;> rfl
    · rfl
  case h_11 => unfold decodeSel0A; split <;> rfl
  case h_12 => unfold decodeSel0B; split <;> rfl
  case h_23 => exact wf_decodeSel16 w
  case h_27 hsel => exact wf_bCond_fieldPayload (extractLsb'_ne_of_sel1A (fieldSel_eq hsel))
  case h_28 => exact wf_decodeSel1B w
  all_goals rfl

end Sys2Proof

namespace Sys2Proof.Machine

/-- Settles O12: by the format of each instruction; the bytes of the encoding make its word. -/
theorem decodeUndoesEncode : Obligations.DecodeUndoesEncode := by
  intro i hwf
  refine ⟨?_, decodeWord_encode i hwf⟩
  rw [encodeBytes, decode, wordOfBytes_bytes, decodeWord_encode i hwf]

/-- Settles O13: well-formed by the selector, and no bit is dropped. -/
theorem encodeUndoesDecode : Obligations.EncodeUndoesDecode := fun w => ⟨wf_decodeWord w, encode_decodeWord w⟩

end Sys2Proof.Machine
end

