-- ==== Sys2Proof/Proofs/Execution.lean ====
section
/-! SUPPORT. What follows from the three shapes of an execution (`ExecShape`): what it leaves alone, the event of its target, and
that no mode code and no mask plays a part. -/

namespace Sys2Proof.Machine

section
variable {i : Instr} {s u : State}

theorem ExecShape.mem_pc (h : ExecShape i s u) : u.mem = s.mem ∧ u.pc = s.pc := by
  cases h <;> exact ⟨rfl, rfl⟩

theorem ExecShape.sameControl (h : ExecShape i s u) : SameControl s u := by
  cases h with
  | result _ _ _ _ hc => exact hc
  | flags _ _ _ hc => exact hc
  | report => exact ⟨rfl, rfl, rfl, rfl⟩

/-- An execution that reports has written nothing else (R211). -/
theorem ExecShape.eq_raise (h : ExecShape i s u) (he : u.event ≠ .evNone) : u = s.raise u.event := by
  cases h with
  | result => exact absurd rfl he
  | flags => exact absurd rfl he
  | report => rfl

/-- The event by the class of the target (R201). -/
theorem ExecShape.event_of_target (h : ExecShape i s u) :
    (i.target.isImplemented = true → u.event = .evNone) ∧
    (i.target.isUndefined = true → u.event = .evUndefined (encode i) s.pc) ∧
    (i.target = .swi → u.event = .evSwi (encode i) s.pc) ∧
    (i.target.isStub = true → u.event = .evUnimplemented i.target (encode i) s.pc) := by
  obtain ⟨hstub, hundef, hswi⟩ := target_classes i.target
  have retired (hi : i.target.isImplemented = true) :
      i.target.isUndefined ≠ true ∧ i.target ≠ .swi ∧ i.target.isStub ≠ true :=
    ⟨fun hu => by simp [hundef hu] at hi, fun hw => by simp [hswi hw] at hi, fun hs => by simp [hstub hs] at hi⟩
  cases h with
  | result _ _ _ hi | flags _ _ hi =>
    obtain ⟨hu, hw, hs⟩ := retired hi
    exact ⟨fun _ => rfl, fun h => absurd h hu, fun h => absurd h hw, fun h => absurd h hs⟩
  | report e _ hi he =>
    refine ⟨fun h => absurd (hi.symm.trans h) Bool.false_ne_true, ?_⟩
    rcases he with ⟨h, rfl⟩ | ⟨h, rfl⟩ | ⟨h, rfl⟩
    · exact ⟨fun _ => rfl, fun hw => absurd hw (hundef h).1, fun hs => by simp [(hstub hs).1] at h⟩
    · exact ⟨fun hu => absurd h (hundef hu).1, fun _ => rfl, fun hs => absurd h (hstub hs).2.1⟩
    · exact ⟨fun hu => by simp [(hstub h).1] at hu, fun hw => absurd hw (hstub h).2.1, fun _ => rfl⟩

/-- Only an undefined target reports code 1 (R201). -/
theorem ExecShape.isUndefined_of_code (h : ExecShape i s u) (hc : u.event.code = 1) : i.target.isUndefined = true := by
  cases h with
  | result | flags => simp [Event.code] at hc
  | report e _ _ he =>
    rcases he with ⟨h, -⟩ | ⟨-, rfl⟩ | ⟨-, rfl⟩
    · exact h
    · simp [Event.code] at hc
    · simp [Event.code] at hc

end

/-- Settles O57: by the shape of the execution. -/
theorem blockWritesNeitherMemoryNorPc : Obligations.BlockWritesNeitherMemoryNorPc := by
  intro i s t h
  obtain ⟨hmem, hpc⟩ := (shape_of_exec i s t h).mem_pc
  exact ⟨fun a => congrArg (Memory.read · a.toNat) hmem, hmem, hpc⟩

/-- No meaning reads I, F or the mode, and each passes them on (R34, R209, R214): it commutes with changing them. -/
theorem exec_withMode (instr : Instr) (s : State) (i f : Bool) (m : BitVec 5) :
    exec instr (s.withMode i f m) = modeOnResult i f m (exec instr s) := by
  cases instr <;> rfl

end Sys2Proof.Machine
end

