-- ==== Sys2Proof/Proofs/Step.lean ====
section
/-! SUPPORT. The step (R9, R20, R110, R230) on a running state and on one that is not. -/

namespace Sys2Proof.Machine

/-- A running step always completes: an execution and the driver's move. -/
theorem step_of_running {s : State} (hr : Running s) :
    ∃ u, ExecShape (decodeWord (s.fetch s.pc)) s u ∧ step s = .next u.advance := by
  obtain ⟨u, hu, hshape⟩ := exec_shape (decodeWord (s.fetch s.pc)) s
  exact ⟨u, hshape, by rw [step_running s hr, hu, advanceResult]⟩

/-- The block's step in the 16-bit mode, at any address. -/
theorem blockStep_narrow {s : State} (hw : s.sr.w = false) (pc : Word) :
    blockStep pc s = exec (decodeWord (s.fetch pc)) (s.present pc) := by
  rw [blockStep, State.wideRefusal, hw]

/-- The block's step in wide mode (R110, R224). -/
theorem blockStep_wide {s : State} (hw : s.sr.w = true) (pc : Word) : blockStep pc s = .refused .wideMode := by
  rw [blockStep, State.wideRefusal, hw]

/-- A step of the block that answers is an execution at the address presented. -/
theorem shape_of_blockStep {s t : State} {pc : Word} (h : blockStep pc s = .next t) :
    ExecShape (decodeWord (s.fetch pc)) (s.present pc) t := by
  cases hw : s.sr.w with
  | false => exact shape_of_exec _ _ t (blockStep_narrow hw pc ▸ h)
  | true => simp [blockStep_wide hw] at h

/-- Where the driver runs, a step is the block's step and the driver's move. -/
theorem step_of_evNone {s : State} (he : s.event = .evNone) : step s = advanceResult (blockStep s.pc s) := by
  rw [step, he, Event.ended]

/-- The report stands on the port as the instruction at `pc` made it (R201, R211). -/
theorem ExecShape.eventHonest {s u : State} (h : ExecShape (decodeWord (s.fetch s.pc)) s u) : EventHonest u.advance := by
  cases h with
  | result => exact True.intro
  | flags => exact True.intro
  | report e _ _ he =>
    rw [encode_decodeWord] at he
    rcases he with ⟨htarget, rfl⟩ | ⟨htarget, rfl⟩ | ⟨htarget, rfl⟩
    · exact ⟨rfl, rfl, htarget⟩
    · exact ⟨rfl, rfl, htarget⟩
    · exact ⟨rfl, rfl, rfl, htarget⟩

/-- Settles O22: the bytes decode to the word fetched, and the driver's move is the choice written out. -/
theorem stepRunsTheDecodedInstruction : Obligations.StepRunsTheDecodedInstruction := by
  intro s i hr hdec
  obtain rfl : decodeWord (s.fetch s.pc) = i := by
    injection hdec with hpair
    injection hpair
  obtain ⟨t, ht, -⟩ := exec_shape (decodeWord (s.fetch s.pc)) s
  rw [step_running s hr, ht, advanceResult]
  change Host.Outcome.next t.advance = .next (if t.event = .evNone then { t with pc := t.pc + 2 } else t)
  split_ifs with he
  · rw [State.advance_none t he]
  · rw [State.advance_event t he]

/-- Settles O23: the placed word is the one fetched, and the state is running by construction. -/
theorem placedWordIsTheNextInstruction : Obligations.PlacedWordIsTheNextInstruction := by
  intro s nbits w hmem
  have hfetch : (s.withFetchWord nbits w).fetch (s.withFetchWord nbits w).pc = tableWord nbits w :=
    s.placeWord_fetch s.pc _ hmem
  refine ⟨decodeWord (tableWord nbits w), ?_, ?_, ?_⟩
  · rw [decodeTableWord, decode, wordOfBytes_bytes]
  · rw [step_running _ ⟨rfl, rfl⟩, hfetch]
  · rintro rfl hw
    rw [encode_decodeWord, tableWord, BitVec.toNat_ofNat]
    simp only [min_self]
    omega

/-- Settles O24. -/
theorem wideModeIsRefused : Obligations.WideModeIsRefused := by
  intro s hw
  exact ⟨fun he => by rw [step_of_evNone he, blockStep_wide hw, advanceResult], blockStep_wide hw⟩

/-- Settles O27: the event of the target, carried unchanged past the driver's move. -/
theorem everyStepReportsTheEventOfItsTarget : Obligations.EveryStepReportsTheEventOfItsTarget := by
  rintro s _ hr rfl
  obtain ⟨u, hshape, hstep⟩ := step_of_running hr
  obtain ⟨-, -, -, hevent⟩ := u.advance_frame
  refine ⟨u.advance, hstep, ?_⟩
  have h := hshape.event_of_target
  rwa [encode_decodeWord, ← hevent] at h

/-- Settles O28: a step that reports is the report alone, since the driver stays. -/
theorem reportIsPrecise : Obligations.ReportIsPrecise := by
  intro s t hstep he
  obtain ⟨-, u, hshape, rfl⟩ := step_cases s t hstep
  obtain ⟨-, -, -, hevent⟩ := u.advance_frame
  rw [hevent] at he
  refine ⟨?_, hshape.eventHonest⟩
  rw [State.advance_event u he]
  exact hshape.eq_raise he

/-- A running step at a word of an undefined target is its report. -/
theorem step_of_isUndefined {s : State} (hr : Running s)
    (hu : (decodeWord (s.fetch s.pc)).target.isUndefined = true) :
    step s = .next (s.raise (.evUndefined (s.fetch s.pc) s.pc)) := by
  obtain ⟨u, hshape, hstep⟩ := step_of_running hr
  have hevent := hshape.event_of_target.2.1 hu
  rw [encode_decodeWord] at hevent
  have he : u.event ≠ .evNone := by rw [hevent]; nofun
  rw [hstep, State.advance_event u he, hshape.eq_raise he, hevent]

/-- Settles O25: the report, and on the port it ends the run. -/
theorem undefinedEndsTheRun : Obligations.UndefinedEndsTheRun := fun s hr hu =>
  ⟨_, step_of_isUndefined hr hu, s.raise_reportedOnly _, rfl⟩

/-- Settles O29: past the driver's move `pc` is the execution's, and a reported event leaves no running state. -/
theorem driverAdvancesByTwoOrStops : Obligations.DriverAdvancesByTwoOrStops := by
  intro s t hstep
  obtain ⟨-, u, hshape, rfl⟩ := step_cases s t hstep
  obtain ⟨-, hpc⟩ := hshape.mem_pc
  obtain ⟨-, -, -, hevent⟩ := u.advance_frame
  refine ⟨fun he => ?_, fun he => ⟨?_, fun v hv => he (running_of_step _ v hv).1⟩⟩
  · rw [State.advance_none u (hevent ▸ he), hpc]
    exact BitVec.toNat_add s.pc 2
  · rw [State.advance_event u (hevent ▸ he), hpc]

/-- Settles O30: after the load the block is in the 16-bit mode, where every instruction answers. -/
theorem coreMayResumeAnywhere : Obligations.CoreMayResumeAnywhere := by
  intro s word pc hw
  obtain ⟨t, ht, -⟩ := exec_shape (decodeWord (s.fetch pc)) ((s.load word).present pc)
  have hblock : blockStep pc (s.load word) = .next t := (blockStep_narrow hw pc).trans ht
  refine ⟨t, ?_, ht⟩
  simp [drive, callCore, hblock]

end Sys2Proof.Machine
end

