-- ==== Sys2Proof/Proofs/Invariants.lean ====
section
/-! SUPPORT. What every step and every sequence of calls keeps: the run invariant, canonical memory, the control fields; and that
no step depends on the mode or the masks. -/

namespace Sys2Proof.Machine

/-- A property that each call of the sequence keeps is one that the sequence keeps. -/
theorem drive_induction {P : State → Prop} {calls : List CoreCall} {s t : State}
    (hcall : ∀ call ∈ calls, ∀ s t, P s → callCore call s = .next t → P t)
    (hs : P s) (h : drive calls s = .next t) : P t := by
  induction calls generalizing s with
  | nil =>
    injection h with h
    exact h ▸ hs
  | cons call calls ih =>
    rw [drive] at h
    split at h
    · next u hu =>
      exact ih (fun c hc => hcall c (List.mem_cons_of_mem _ hc)) (hcall call List.mem_cons_self s u hs hu) h
    · cases h
    · cases h

/-- Settles O10: `step` leaves the memory, `pokeByte` keeps its form, and the other two calls do not touch it. -/
theorem everyCallKeepsTheMemoryCanonical : Obligations.EveryCallKeepsTheMemoryCanonical := by
  intro calls s t hs hdrive
  refine drive_induction (P := fun s => s.mem.wf = true) (fun call _ s t hs hcall => ?_) hs hdrive
  cases call with
  | step pc => rw [(shape_of_blockStep hcall).mem_pc.1]; exact hs
  | load word => cases hcall; exact hs
  | setLowReg packed value => cases hcall; exact hs
  | pokeByte a b => cases hcall; exact s.pokeByte_wf a b hs

/-- Settles O56: the control fields are those of the first state after every call but `load`. -/
theorem controlFieldsChangeOnlyByLoad : Obligations.ControlFieldsChangeOnlyByLoad := by
  intro calls s t hload hdrive
  refine drive_induction (P := SameControl s) (fun call hmem u v hu hcall => ?_) ⟨rfl, rfl, rfl, rfl⟩ hdrive
  cases call with
  | step pc =>
    obtain ⟨hi, hf, hw, hm⟩ := (shape_of_blockStep hcall).sameControl
    obtain ⟨hi', hf', hw', hm'⟩ := hu
    exact ⟨hi.trans hi', hf.trans hf', hw.trans hw', hm.trans hm'⟩
  | load word => exact absurd hmem (hload word)
  | setLowReg packed value => cases hcall; exact hu
  | pokeByte a b => cases hcall; exact hu

/-- Settles O58: an execution leaves memory, mode and W, and its report is honest; the driver moves `pc` alone. -/
theorem stepKeepsTheRunInvariant : Obligations.StepKeepsTheRunInvariant := by
  intro s t hinv hstep
  obtain ⟨hr, u, hshape, rfl⟩ := step_cases s t hstep
  obtain ⟨-, hsr, hmem, -⟩ := u.advance_frame
  obtain ⟨-, -, hw, hm⟩ := hshape.sameControl
  exact
    { memory := by rw [hmem, hshape.mem_pc.1]; exact hinv.memory
      mode := by rw [hsr, StatusRegister.modeDefined, hm]; exact hinv.mode
      narrow := by rw [hsr, hw]; exact hinv.narrow
      event := hshape.eventHonest }

/-- Settles O7: the memory is empty, and mode, W and event are the reset values. -/
theorem resetMeetsTheRunInvariant : Obligations.ResetMeetsTheRunInvariant where
  memory := State.reset_mem_wf
  mode := by decide
  narrow := rfl
  event := True.intro

/-- The driver's move does not read the mode or the masks. -/
theorem State.advance_withMode (s : State) (i f : Bool) (m : BitVec 5) :
    (s.withMode i f m).advance = s.advance.withMode i f m := by
  by_cases he : s.event = .evNone
  · rw [State.advance_none s he, State.advance_none (s.withMode i f m) he]; rfl
  · rw [State.advance_event s he, State.advance_event (s.withMode i f m) he]

/-- A run that has ended answers alike in every mode. -/
theorem modeOnResult_of_ended {e : Event} {r : Result} (h : e.ended = some r) (i f : Bool) (m : BitVec 5) :
    modeOnResult i f m r = r := by
  cases r with
  | next u => exact absurd rfl (Event.ended_not_next e _ h u)
  | fault => rfl
  | refused => rfl

/-- Settles O55: a running step is an execution, which commutes with the change, and the driver's move, which does too; a
stop is the same stop. -/
theorem modeAndMasksNeverMatter : Obligations.ModeAndMasksNeverMatter := by
  intro s i f m
  cases hend : s.event.ended with
  | some r =>
    have hstep : step s = r := by rw [step, hend]
    have hstep' : step (s.withMode i f m) = r := by rw [step, State.withMode_event, hend]
    rw [hstep, hstep', modeOnResult_of_ended hend]
  | none =>
    have he : s.event = .evNone := by cases h : s.event <;> simp [h, Event.ended] at hend ⊢
    rw [step_of_evNone he, step_of_evNone (s := s.withMode i f m) he]
    cases hw : s.sr.w with
    | true => rw [blockStep_wide hw, blockStep_wide (s := s.withMode i f m) hw]; rfl
    | false =>
      obtain ⟨t, ht, -⟩ := exec_shape (decodeWord (s.fetch s.pc)) (s.present s.pc)
      have ht' := exec_withMode (decodeWord (s.fetch s.pc)) (s.present s.pc) i f m
      rw [ht, modeOnResult] at ht'
      rw [blockStep_narrow hw, blockStep_narrow (s := s.withMode i f m) hw, ht, advanceResult, modeOnResult,
        ← State.advance_withMode]
      exact congrArg advanceResult ht'

end Sys2Proof.Machine
end

