-- ==== Sys2Proof/Proofs/OpcodeTable.lean ====
section
/-! SUPPORT. The opcode table (R107): its rows are disjoint ranges of words in rising order, and every word lies in the row of the
target it decodes to. -/

namespace Sys2Proof

/-- A word of a row is at least the row's pattern, and exceeds it by no more than the bits the mask leaves free. -/
theorem Row.holds_bounds {r : Row} {w : Half} (h : r.holds w = true) :
    r.pattern.toNat ≤ w.toNat ∧ w.toNat + r.mask.toNat ≤ r.pattern.toNat + 65535 := by
  have hpattern : w &&& r.mask = r.pattern := by simpa [Row.holds] using h
  have hdisjoint : (w &&& r.mask) &&& (w &&& ~~~r.mask) = 0#16 := by
    apply BitVec.eq_of_getLsbD_eq
    intro k hk
    cases hm : r.mask.getLsbD k <;> simp [hm]
  have hsplit : (w &&& r.mask) + (w &&& ~~~r.mask) = w := by
    rw [BitVec.add_eq_or_of_and_eq_zero _ _ hdisjoint]
    apply BitVec.eq_of_getLsbD_eq
    intro k hk
    cases hm : r.mask.getLsbD k <;> simp [hm, hk, -BitVec.getLsbD_eq_getElem]
  have hsum : (w &&& r.mask).toNat + (w &&& ~~~r.mask).toNat = w.toNat := by
    rw [← BitVec.toNat_add_of_and_eq_zero hdisjoint, hsplit]
  have hfree : (w &&& ~~~r.mask).toNat ≤ 65535 - r.mask.toNat := by
    rw [BitVec.toNat_and, BitVec.toNat_not]
    exact Nat.and_le_right
  have := r.mask.isLt
  rw [hpattern] at hsum
  omega

/-- The last word of the row, by `Row.holds_bounds`, lies below the first of the other. -/
def Row.Before (r r' : Row) : Prop := r.pattern.toNat + 65535 < r'.pattern.toNat + r.mask.toNat

theorem Row.Before.trans {r r' r'' : Row} (h : r.Before r') (h' : r'.Before r'') : r.Before r'' := by
  have := r'.mask.isLt
  unfold Row.Before at *
  omega

/-- No word is of both rows. -/
theorem Row.Before.disjoint {r r' : Row} (h : r.Before r') (w : Half) : ¬(r.holds w = true ∧ r'.holds w = true) := by
  rintro ⟨hr, hr'⟩
  have := Row.holds_bounds hr
  have := Row.holds_bounds hr'
  unfold Row.Before at h
  omega

theorem opcodeTable_isChain : opcodeTable.IsChain Row.Before := by
  simp only [opcodeTable, List.isChain_append]
  unfold Row.Before
  decide

/-- Two rows of the table that a word matches are one. -/
theorem opcodeTable_unique {r r' : Row} {w : Half} (hr : r ∈ opcodeTable) (hr' : r' ∈ opcodeTable)
    (h : r.holds w = true) (h' : r'.holds w = true) : r = r' := by
  have : Trans Row.Before Row.Before Row.Before := ⟨Row.Before.trans⟩
  have hsorted : opcodeTable.Pairwise Row.Before := List.isChain_iff_pairwise.mp opcodeTable_isChain
  have hdisjoint : opcodeTable.Pairwise fun r r' => ¬(r.holds w = true ∧ r'.holds w = true) :=
    hsorted.imp fun hbefore => hbefore.disjoint w
  have : Std.Symm fun r r' : Row => ¬(r.holds w = true ∧ r'.holds w = true) := ⟨fun _ _ hn hs => hn hs.symm⟩
  by_contra hne
  exact hdisjoint.forall hr hr' hne ⟨h, h'⟩

/-- `TableRow.Statement`, of every instruction. -/
theorem tableRow_statement (i : Instr) : Laws.TableRow.Statement i :=
  match i with
  | .lslImm _ _ _ => Laws.TableRow.lslImm _ _ _
  | .lsrImm _ _ _ => Laws.TableRow.lsrImm _ _ _
  | .asrImm _ _ _ => Laws.TableRow.asrImm _ _ _
  | .addReg _ _ _ => Laws.TableRow.addReg _ _ _
  | .subReg _ _ _ => Laws.TableRow.subReg _ _ _
  | .addImm3 _ _ _ => Laws.TableRow.addImm3 _ _ _
  | .subImm3 _ _ _ => Laws.TableRow.subImm3 _ _ _
  | .movImm8 _ _ => Laws.TableRow.movImm8 _ _
  | .cmpImm8 _ _ => Laws.TableRow.cmpImm8 _ _
  | .addImm8 _ _ => Laws.TableRow.addImm8 _ _
  | .subImm8 _ _ => Laws.TableRow.subImm8 _ _
  | .aluAnd _ _ => Laws.TableRow.aluAnd _ _
  | .aluEor _ _ => Laws.TableRow.aluEor _ _
  | .aluLsl _ _ => Laws.TableRow.aluLsl _ _
  | .aluLsr _ _ => Laws.TableRow.aluLsr _ _
  | .aluAsr _ _ => Laws.TableRow.aluAsr _ _
  | .aluAdc _ _ => Laws.TableRow.aluAdc _ _
  | .aluSbc _ _ => Laws.TableRow.aluSbc _ _
  | .aluRor _ _ => Laws.TableRow.aluRor _ _
  | .aluTst _ _ => Laws.TableRow.aluTst _ _
  | .aluNeg _ _ => Laws.TableRow.aluNeg _ _
  | .aluCmp _ _ => Laws.TableRow.aluCmp _ _
  | .aluCmn _ _ => Laws.TableRow.aluCmn _ _
  | .aluOrr _ _ => Laws.TableRow.aluOrr _ _
  | .aluMul _ _ => Laws.TableRow.aluMul _ _
  | .aluBic _ _ => Laws.TableRow.aluBic _ _
  | .aluMvn _ _ => Laws.TableRow.aluMvn _ _
  | .hiRegOp _ => Laws.TableRow.hiRegOp _
  | .ldrPc _ => Laws.TableRow.ldrPc _
  | .strReg _ => Laws.TableRow.strReg _
  | .strhReg _ => Laws.TableRow.strhReg _
  | .strbReg _ => Laws.TableRow.strbReg _
  | .ldsbReg _ => Laws.TableRow.ldsbReg _
  | .ldrReg _ => Laws.TableRow.ldrReg _
  | .ldrhReg _ => Laws.TableRow.ldrhReg _
  | .ldrbReg _ => Laws.TableRow.ldrbReg _
  | .ldshReg _ => Laws.TableRow.ldshReg _
  | .strImm _ => Laws.TableRow.strImm _
  | .ldrImm _ => Laws.TableRow.ldrImm _
  | .strbImm _ => Laws.TableRow.strbImm _
  | .ldrbImm _ => Laws.TableRow.ldrbImm _
  | .strhImm _ => Laws.TableRow.strhImm _
  | .ldrhImm _ => Laws.TableRow.ldrhImm _
  | .strSp _ => Laws.TableRow.strSp _
  | .ldrSp _ => Laws.TableRow.ldrSp _
  | .loadAddress14 _ => Laws.TableRow.loadAddress14 _
  | .loadAddress15 _ => Laws.TableRow.loadAddress15 _
  | .addSpOffset _ => Laws.TableRow.addSpOffset _
  | .undef16 _ => Laws.TableRow.undef16 _
  | .push _ => Laws.TableRow.push _
  | .pop _ => Laws.TableRow.pop _
  | .stmia _ => Laws.TableRow.stmia _
  | .ldmia _ => Laws.TableRow.ldmia _
  | .bCond _ => Laws.TableRow.bCond _
  | .swi _ => Laws.TableRow.swi _
  | .b _ => Laws.TableRow.b _
  | .undefined _ => Laws.TableRow.undefined _
  | .blLow _ => Laws.TableRow.blLow _
  | .blHigh _ => Laws.TableRow.blHigh _

/-- Every word is of a row of the target it decodes to. -/
theorem exists_row (w : Half) : ∃ r ∈ opcodeTable, r.target = (decodeWord w).target ∧ r.holds w = true := by
  have h := tableRow_statement (decodeWord w) (wf_decodeWord w)
  rwa [encode_decodeWord] at h

end Sys2Proof

namespace Sys2Proof.Machine

/-- Settles O15: the row of the word's target, alone among the disjoint ranges. -/
theorem opcodeTablePartitionsTheWords : Obligations.OpcodeTablePartitionsTheWords := by
  refine ⟨rfl, fun w => ?_⟩
  obtain ⟨r, hr, htarget, hholds⟩ := exists_row w
  exact ⟨r, hr, hholds, htarget, fun r' hr' hholds' => opcodeTable_unique hr' hr hholds' hholds⟩

end Sys2Proof.Machine
end

