-- ==== Sys2Proof/Proofs/Routing.lean ====
section
/-! SUPPORT. Routing by ranges of words (R75 to R87, R96 to R102): the secondary comparisons as arithmetic on the word, and the
undefined words (R108). -/

namespace Sys2Proof.Machine

/-- Bits `k` up to `k + n` of a word: it divided by `2 ^ k`, modulo `2 ^ n`. -/
theorem extractLsb'_eq_iff (w : Half) {k n : Nat} (v : BitVec n) :
    w.extractLsb' k n = v ↔ w.toNat / 2 ^ k % 2 ^ n = v.toNat := by
  rw [← BitVec.toNat_inj, BitVec.extractLsb'_toNat, Nat.shiftRight_eq_div_pow]

/-- A field from bit `k` on is the word divided by `2 ^ k`. -/
theorem extractLsb'_eq_ofNat (w : Half) (k n : Nat) : w.extractLsb' k n = BitVec.ofNat n (w.toNat / 2 ^ k) := by
  rw [BitVec.extractLsb', Nat.shiftRight_eq_div_pow]

/-- Selector 0x16 from 0xB000 to 0xB0FF (R97). -/
theorem decodeSel16_addSpOffset {w : Half} (h : w.toNat / 256 % 8 = 0) : decodeSel16 w = .addSpOffset (fieldPayload 8 w) :=
  if_pos ((extractLsb'_eq_iff w _).mpr h)

/-- Selector 0x16 from 0xB400 to 0xB5FF (R97). -/
theorem decodeSel16_push {w : Half} (h : w.toNat / 512 % 4 = 2) : decodeSel16 w = .push (fieldPayload 9 w) := by
  have hne : w.extractLsb' 8 3 ≠ Config.sel16AddSpValue := fun heq => by
    have : w.toNat / 256 % 8 = 0 := (extractLsb'_eq_iff w _).mp heq
    omega
  rw [decodeSel16, if_neg hne, if_pos ((extractLsb'_eq_iff w _).mpr h)]

/-- The other words of selector 0x16 (R97). -/
theorem decodeSel16_undef16 {w : Half} (h3 : w.toNat / 256 % 8 ≠ 0) (h2 : w.toNat / 512 % 4 ≠ 2) :
    decodeSel16 w = .undef16 (fieldPayload 11 w) := by
  rw [decodeSel16, if_neg fun heq => h3 ((extractLsb'_eq_iff w _).mp heq),
    if_neg fun heq => h2 ((extractLsb'_eq_iff w _).mp heq)]

/-- Selector 0x1B from 0xDF00 on (R102). -/
theorem decodeSel1B_swi {w : Half} (h : w.toNat / 256 % 16 = 15) : decodeSel1B w = .swi (fieldPayload 8 w) :=
  if_pos ((extractLsb'_eq_iff w _).mpr h)

/-- Selector 0x1B up to 0xDEFF (R102). -/
theorem decodeSel1B_bCond {w : Half} (h : w.toNat / 256 % 16 ≠ 15) : decodeSel1B w = .bCond (fieldPayload 12 w) :=
  if_neg fun heq => h ((extractLsb'_eq_iff w _).mp heq)

/-- The words from 0xB100 to 0xB3FF and from 0xB600 to 0xB7FF are UNDEF_16's (R97, D17). -/
theorem decodeWord_undef16 {w : Half}
    (h : (0xB100 ≤ w.toNat ∧ w.toNat ≤ 0xB3FF) ∨ (0xB600 ≤ w.toNat ∧ w.toNat ≤ 0xB7FF)) :
    decodeWord w = .undef16 (BitVec.ofNat 11 w.toNat) := by
  have hsel : w.toNat / 2048 = 0x16 := by omega
  simp only [decodeWord, fieldSel_toNat, hsel]
  exact decodeSel16_undef16 (by omega) (by omega)

/-- The words from 0xD000 to 0xDEFF are the conditional branch's, under two selectors (R101, R102, D18). -/
theorem decodeWord_bCond {w : Half} (hlo : 0xD000 ≤ w.toNat) (hhi : w.toNat ≤ 0xDEFF) :
    decodeWord w = .bCond (BitVec.ofNat 12 w.toNat) := by
  have hsel : w.toNat / 2048 = 0x1A ∨ w.toNat / 2048 = 0x1B := by omega
  rcases hsel with hsel | hsel
  · simp only [decodeWord, fieldSel_toNat, hsel, fieldPayload_eq_ofNat]
  · simp only [decodeWord, fieldSel_toNat, hsel]
    exact decodeSel1B_bCond (by omega)

/-- Settles O16: the selector's number chooses the arm of `decodeWord`, and the fields are the word divided. -/
theorem shiftAndImmediateSelectorsRoute : Obligations.ShiftAndImmediateSelectorsRoute := by
  intro w
  and_intros
  all_goals
    intro hsel
    simp only [decodeWord, fieldSel_toNat, hsel, fieldPayload_eq_ofNat, fieldImm5, fieldRs, fieldRd, fieldRd8, fieldImm8,
      extractLsb'_eq_ofNat, Nat.reducePow, Nat.div_one]

/-- Settles O19: the joined words are encodings; a range of words fixes the selector and the bits compared under it. -/
theorem decidedRoutingsFollowTheSpec : Obligations.DecidedRoutingsFollowTheSpec := by
  refine ⟨fun f rs rd => ⟨decodeWord_encode (.addReg f rs rd) rfl, decodeWord_encode (.addImm3 f rs rd) rfl,
      decodeWord_encode (.subReg f rs rd) rfl, decodeWord_encode (.subImm3 f rs rd) rfl⟩,
    fun p => ⟨decodeWord_encode (.strReg p) rfl, decodeWord_encode (.strbReg p) rfl, decodeWord_encode (.strhReg p) rfl,
      decodeWord_encode (.ldsbReg p) rfl, decodeWord_encode (.ldrReg p) rfl, decodeWord_encode (.ldrbReg p) rfl,
      decodeWord_encode (.ldrhReg p) rfl, decodeWord_encode (.ldshReg p) rfl⟩,
    fun w => ⟨fun hlo hhi => ?addSpOffset, fun hlo hhi => decodeWord_undef16 (.inl ⟨hlo, hhi⟩), fun hlo hhi => ?push,
      fun hlo hhi => decodeWord_undef16 (.inr ⟨hlo, hhi⟩), fun hlo hhi => ?loadAddress14, fun hlo hhi => ?loadAddress15,
      fun hlo hhi => ?pop, fun hlo hhi => decodeWord_bCond hlo hhi, fun hlo hhi => ?swi⟩⟩
  case addSpOffset =>
    have hsel : w.toNat / 2048 = 0x16 := by omega
    simp only [decodeWord, fieldSel_toNat, hsel]
    exact decodeSel16_addSpOffset (by omega)
  case push =>
    have hsel : w.toNat / 2048 = 0x16 := by omega
    simp only [decodeWord, fieldSel_toNat, hsel]
    exact decodeSel16_push (by omega)
  case loadAddress14 =>
    have hsel : w.toNat / 2048 = 0x14 := by omega
    simp only [decodeWord, fieldSel_toNat, hsel, fieldPayload_eq_ofNat]
  case loadAddress15 =>
    have hsel : w.toNat / 2048 = 0x15 := by omega
    simp only [decodeWord, fieldSel_toNat, hsel, fieldPayload_eq_ofNat]
  case pop =>
    have hsel : w.toNat / 2048 = 0x17 := by omega
    simp only [decodeWord, fieldSel_toNat, hsel, fieldPayload_eq_ofNat]
  case swi =>
    have hsel : w.toNat / 2048 = 0x1B := by have := w.isLt; omega
    simp only [decodeWord, fieldSel_toNat, hsel]
    exact decodeSel1B_swi (by omega)

/-- Settles O20: for each of the 16 sub-opcodes the word is the encoding of the operation in that place of the list. -/
theorem aluSubOpcodesFollowTheList : Obligations.AluSubOpcodesFollowTheList := by
  refine ⟨fun op rs rd => ?_, decodeWord_append_hiReg⟩
  have hdecode : decodeWord (0b01000#5 ++ 0#1 ++ op ++ rs ++ rd) =
      decodeAlu (0b01000#5 ++ 0#1 ++ op ++ rs ++ rd) :=
    decodeWord_eq_decodeAlu (fieldSel_append_alu ..) (fieldBit10_append_alu ..)
  rw [hdecode, decodeAlu, fieldOp_append_alu, fieldRs_append_alu, fieldRd_append_alu]
  obtain ⟨k, hk⟩ := op
  interval_cases k <;> rfl

/-- Settles O21. -/
theorem writtenOutWordsDecode : Obligations.WrittenOutWordsDecode := by
  and_intros <;> rfl

/-! ### The undefined words -/

/-- The rows of the undefined targets cover no other words than these. -/
theorem undefined_rows : ∀ r ∈ opcodeTable, r.target.isUndefined = true →
    (0xE800 ≤ r.pattern.toNat ∧ r.pattern.toNat + 65535 ≤ 0xEFFF + r.mask.toNat) ∨
    (0xB100 ≤ r.pattern.toNat ∧ r.pattern.toNat + 65535 ≤ 0xB3FF + r.mask.toNat) ∨
    (0xB600 ≤ r.pattern.toNat ∧ r.pattern.toNat + 65535 ≤ 0xB7FF + r.mask.toNat) := by
  decide

/-- The undefined words (R108, D17). -/
theorem isUndefined_iff (w : Half) : (decodeWord w).target.isUndefined = true ↔
    (0xE800 ≤ w.toNat ∧ w.toNat ≤ 0xEFFF) ∨ (0xB100 ≤ w.toNat ∧ w.toNat ≤ 0xB3FF) ∨
      (0xB600 ≤ w.toNat ∧ w.toNat ≤ 0xB7FF) := by
  constructor
  · intro hu
    obtain ⟨r, hr, htarget, hholds⟩ := exists_row w
    have hwords := Row.holds_bounds hholds
    have hrow := undefined_rows r hr (htarget ▸ hu)
    omega
  · rintro (h | h)
    · have hsel : w.toNat / 2048 = 0x1D := by omega
      simp only [decodeWord, fieldSel_toNat, hsel]
      rfl
    · rw [decodeWord_undef16 h]
      rfl

/-- Settles O26: in the ranges the target is undefined and the step is its report; outside them it is not, so the step reports
another code. -/
theorem undefinedWordsAreExactlyThese : Obligations.UndefinedWordsAreExactlyThese := by
  rintro s _ hr rfl
  obtain ⟨u, hshape, hstep⟩ := step_of_running hr
  obtain ⟨-, -, -, hevent⟩ := u.advance_frame
  refine ⟨u.advance, hstep, fun hrange => ?_, fun hrange hcode => ?_⟩
  · have hreport := step_of_isUndefined hr ((isUndefined_iff _).mpr hrange)
    rw [hstep] at hreport
    injection hreport with hreport
    exact hreport ▸ s.raise_reportedOnly _
  · exact hrange ((isUndefined_iff _).mp (hshape.isUndefined_of_code (hevent ▸ hcode)))

end Sys2Proof.Machine
end

