-- ==== Sys2Proof/Proofs/CoreCalls.lean ====
section
/-! SUPPORT. The CPU core's calls between steps: the round trips of `load` and `save` (R28, R31), a register set (R14), a byte
changed (R54). -/

namespace Sys2Proof.Machine

/-- The bits that are state: the flags, and I, F, W with the mode (R22, R32). -/
theorem getLsbD_stateMask {k : Nat} (hk : k < 32) :
    (0xF00000FF#32).getLsbD k = decide (k < 8 ∨ 28 ≤ k) := by
  revert k
  decide

/-- R31, second sentence: what was loaded is saved, without the reserved bits. -/
theorem State.save_load (s : State) (word : Word) : (s.load word).save = word &&& 0xF00000FF#32 := by
  apply BitVec.eq_of_getLsbD_eq
  intro k hk
  rw [saveLaysOutEveryField (s.load word) k hk, BitVec.getLsbD_and, getLsbD_stateMask hk]
  split_ifs with h31 h30 h29 h28 hreserved h7 h6 h5
  · subst h31; simp [StatusRegister.load]
  · subst h30; simp [StatusRegister.load]
  · subst h29; simp [StatusRegister.load]
  · subst h28; simp [StatusRegister.load]
  · have : ¬(k < 8 ∨ 28 ≤ k) := by omega
    simp [this]
  · subst h7; simp [StatusRegister.load]
  · subst h6; simp [StatusRegister.load]
  · subst h5; simp [StatusRegister.load]
  · have hmode : k < 5 := by omega
    have : k < 8 := by omega
    simp [StatusRegister.load, hmode, this]

/-- A word without reserved bits is what the state bits of it are. -/
theorem and_stateMask_of_reserved_zero {word : Word} (h : word &&& 0x0FFFFF00#32 = 0#32) : word &&& 0xF00000FF#32 = word := by
  have hall : word &&& (0xF00000FF#32 ||| 0x0FFFFF00#32) = word := BitVec.and_allOnes
  rwa [BitVec.and_or_distrib_left, h, BitVec.or_zero] at hall

/-- Settles O5: saving keeps the state bits of the loaded word, and each field is loaded from where it was saved. -/
theorem statusWordRoundTrip : Obligations.StatusWordRoundTrip := by
  refine ⟨fun s word h => ?_, State.save_load, fun s => ?_⟩
  · rw [State.save_load, and_stateMask_of_reserved_zero h]
  · rw [State.load, State.save, StatusRegister.load_save]

/-- Settles O2: the low five bits of the saved word are the mode that loading it again gives. -/
theorem anyModeCodeIsStoredAndReturned : Obligations.AnyModeCodeIsStoredAndReturned := by
  intro s word
  refine ⟨s.load word, callCore_load s word, StatusRegister.load_m_toNat word, s.load_event word, ?_⟩
  rw [State.save, State.load_sr, ← StatusRegister.load_m_toNat, StatusRegister.load_save, StatusRegister.load_m_toNat]

/-- Settles O6. -/
theorem resetHoldsTheLowestPrivilegeMode : Obligations.ResetHoldsTheLowestPrivilegeMode :=
  ⟨rfl, resetMeetsTheRunInvariant.mode⟩

/-- The setter's index is the packed byte modulo 8 (R14). -/
theorem lowIndex_toNat (packed : Byte) : (lowIndex packed).toNat = packed.toNat % 8 := by
  rw [lowIndex, BitVec.extractLsb'_toNat, Nat.shiftRight_zero]

/-- Settles O8. -/
theorem registerSetterMasksTheIndex : Obligations.RegisterSetterMasksTheIndex := by
  intro s packed value
  refine ⟨s.setLowReg packed value, rfl, fun j => ?_, rfl, fun _ => rfl, rfl, rfl⟩
  rw [State.setLowReg_x, ← lowIndex_toNat]
  simp only [BitVec.toNat_inj]

/-- Settles O9: the laws of a canonical memory, under one write. -/
theorem changedByteReadsBackAndNoOther : Obligations.ChangedByteReadsBackAndNoOther := fun s a b hmem =>
  ⟨s.pokeByte a b, rfl, s.pokeByte_readByte_same a b hmem, fun a' ha' => s.pokeByte_readByte_other a a' b ha',
    s.pokeByte_wf a b hmem, fun _ => rfl, rfl, rfl, rfl⟩

end Sys2Proof.Machine
end

