-- ==== Sys2Proof/Proofs/Reports.lean ====
section
/-! SUPPORT. The targets that report (R161 to R190, R197, R198): the word reported, as a number, from the selector, the secondary
bits and the payload. -/

namespace Sys2Proof

/-- Joining bits above `x` adds their number times `2 ^ n`. -/
theorem append_toNat {m n : Nat} (top : BitVec m) (x : BitVec n) : (top ++ x).toNat = top.toNat * 2 ^ n + x.toNat := by
  rw [BitVec.toNat_append, ← Nat.shiftLeft_add_eq_or_of_lt x.isLt, Nat.shiftLeft_eq]

end Sys2Proof

namespace Sys2Proof.Machine

/-- The word an instruction reports, as a number, is its own encoding. -/
theorem ofNat_eq_encode {i : Instr} {n : Nat} (h : (encode i).toNat = n) : BitVec.ofNat 16 n = encode i := by
  rw [← h, BitVec.ofNat_toNat, BitVec.setWidth_eq]

/-- A stub reports its target and its word and nothing else (R161). -/
theorem stub_reports {i : Instr} {s : State} {n : Nat} (hexec : exec i s = .next (s.reportStub i))
    (hword : (encode i).toNat = n) :
    ∃ t, exec i s = .next t ∧ ReportedOnly (.evUnimplemented i.target (BitVec.ofNat 16 n) s.pc) s t :=
  ⟨_, hexec, ofNat_eq_encode hword ▸ s.raise_reportedOnly _⟩

/-- Settles O47: each is a stub, and the bits above its payload make the base of its words. -/
theorem hiRegAndRegisterOffsetStubsReport : Obligations.HiRegAndRegisterOffsetStubsReport := by
  intro s
  and_intros
  all_goals exact fun p => stub_reports rfl (append_toNat _ p)

/-- Settles O48: as O47. -/
theorem immediateAndStackRelativeStubsReport : Obligations.ImmediateAndStackRelativeStubsReport := by
  intro s
  and_intros
  all_goals exact fun p => stub_reports rfl (append_toNat _ p)

/-- Settles O49: as O47. -/
theorem addressStackMultipleAndBranchStubsReport : Obligations.AddressStackMultipleAndBranchStubsReport := by
  intro s
  and_intros
  all_goals exact fun p => stub_reports rfl (append_toNat _ p)

/-- Settles O51: each raises its event with its own encoding. -/
theorem unhandledWordsAndSoftwareInterruptReport : Obligations.UnhandledWordsAndSoftwareInterruptReport := fun s =>
  ⟨fun p => ⟨_, rfl, ofNat_eq_encode (i := .undef16 p) (append_toNat _ p) ▸ s.raise_reportedOnly _⟩,
    fun p => ⟨_, rfl, ofNat_eq_encode (i := .swi p) (append_toNat _ p) ▸ s.raise_reportedOnly _⟩⟩

end Sys2Proof.Machine
end

