-- ==== Sys2Proof/Proofs/Shifts.lean ====
section
/-! SUPPORT. The shifter against its tables (R114 to R118), and the shifts and the rotate that retire its result. -/

namespace Sys2Proof.Machine

/-! ### The tables -/

theorem shiftLSL_table (v : Word) (n : Nat) (c : Bool) : LslTable v n c (shiftLSL v n c).1 (shiftLSL v n c).2 := by
  unfold shiftLSL
  refine ⟨fun h => ?_, fun h1 h31 => ?_, fun h => ?_, fun h => ?_⟩
  · simp [h]
  · rw [if_neg (by omega), if_pos (by omega), BitVec.toNat_shiftLeft, Nat.shiftLeft_eq]
    exact ⟨rfl, rfl⟩
  · simp [h]
  · rw [if_neg (by omega), if_neg (by omega), if_neg (by omega)]
    exact ⟨rfl, rfl⟩

theorem shiftLSR_table (v : Word) (n : Nat) (c : Bool) : LsrTable v n c (shiftLSR v n c).1 (shiftLSR v n c).2 := by
  unfold shiftLSR
  refine ⟨fun h => ?_, fun h1 h31 => ?_, fun h => ?_, fun h => ?_⟩
  · simp [h]
  · rw [if_neg (by omega), if_pos (by omega), BitVec.toNat_ushiftRight, Nat.shiftRight_eq_div_pow]
    exact ⟨rfl, rfl⟩
  · simp [h]
  · rw [if_neg (by omega), if_neg (by omega), if_neg (by omega)]
    exact ⟨rfl, rfl⟩

theorem shiftASR_table (v : Word) (n : Nat) (c : Bool) : AsrTable v n c (shiftASR v n c).1 (shiftASR v n c).2 := by
  unfold shiftASR
  refine ⟨fun h => ?_, fun h1 h31 => ?_, fun h => ?_⟩
  · simp [h]
  · rw [if_neg (by omega), if_pos (by omega), BitVec.toInt_sshiftRight, Int.shiftRight_eq_div_pow]
    exact ⟨rfl, rfl⟩
  · rw [if_neg (by omega), if_neg (by omega)]
    cases v.getLsbD 31 <;> exact ⟨rfl, rfl⟩

/-- The two halves of the rotation: below bit `32 - n` the value shifted right, from there on the bits shifted out. -/
theorem rotROR_table (v : Word) (n : Nat) (c : Bool) : RorTable v n (rotROR v n c).1 (rotROR v n c).2 := by
  unfold rotROR
  by_cases h0 : n % 32 = 0
  · rw [if_pos h0]
    refine ⟨fun k hk => ?_, fun _ => rfl, fun hne => absurd h0 hne⟩
    rw [show (k + n) % 32 = k by omega]
  · rw [if_neg h0]
    refine ⟨fun k hk => ?_, fun heq => absurd heq h0, fun _ => rfl⟩
    simp only [BitVec.getLsbD_or, BitVec.getLsbD_ushiftRight, BitVec.getLsbD_shiftLeft]
    by_cases hlow : k < 32 - n % 32
    · rw [show (k + n) % 32 = n % 32 + k by omega]
      simp [hlow]
    · rw [BitVec.getLsbD_of_ge v (n % 32 + k) (by omega), show (k + n) % 32 = k - (32 - n % 32) by omega]
      simp [hk, hlow]

/-- A right shift by 1 or more clears bit 31. -/
theorem LsrTable.getLsbD_31 {v r : Word} {n : Nat} {c co : Bool} (h : LsrTable v n c r co) (hn : 1 ≤ n) :
    r.getLsbD 31 = false := by
  obtain ⟨-, hshort, hword, hlong⟩ := h
  rcases Nat.lt_trichotomy n 32 with hlt | heq | hgt
  · obtain ⟨hr, -⟩ := hshort hn (by omega)
    have hhalf : r.toNat < 2 ^ 31 := by
      have := v.isLt
      have : 2 ^ 1 ≤ 2 ^ n := Nat.pow_le_pow_right (by decide) hn
      rw [hr, Nat.div_lt_iff_lt_mul (by omega)]
      omega
    exact Nat.testBit_lt_two_pow hhalf
  · rw [(hword heq).1]; rfl
  · rw [(hlong hgt).1]; rfl

/-- A sign-filling shift keeps bit 31. -/
theorem AsrTable.getLsbD_31 {v r : Word} {n : Nat} {c co : Bool} (h : AsrTable v n c r co) :
    r.getLsbD 31 = v.getLsbD 31 := by
  obtain ⟨hzero, hshort, hlong⟩ := h
  by_cases h0 : n = 0
  · rw [(hzero h0).1]
  by_cases h31 : n ≤ 31
  · have hsign : 0 ≤ v.toInt / 2 ^ n ↔ 0 ≤ v.toInt := Int.ediv_nonneg_iff_of_pos (by positivity)
    rw [getLsbD_31_eq_neg r, getLsbD_31_eq_neg v, (hshort (by omega) h31).1, decide_eq_decide]
    omega
  · obtain ⟨hr, -⟩ := hlong (by omega)
    rw [getLsbD_31_eq_neg r, hr]
    cases v.getLsbD 31 <;> rfl

/-! ### The amounts -/

/-- A literal 0 is read as 32 (R70). -/
theorem rightShiftAmount_eq (imm5 : BitVec 5) :
    rightShiftAmount imm5 = if imm5.toNat = 0 then 32 else imm5.toNat := by
  unfold rightShiftAmount
  exact if_congr BitVec.toNat_inj.symm rfl rfl

theorem rightShiftAmount_pos (imm5 : BitVec 5) : 1 ≤ rightShiftAmount imm5 := by
  rw [rightShiftAmount_eq]
  split_ifs <;> omega

/-- The low 8 bits as a number (R118). -/
theorem registerAmount_eq (v : Word) : registerAmount v = lowEight v := by
  rw [registerAmount, lowEight, BitVec.extractLsb'_toNat, Nat.shiftRight_zero]

/-! ### The instructions -/

/-- An instruction that retires a shifter result writes it to `x[rd]` and its carry to C, N and Z from it, and nothing else. -/
theorem shift_effect {i : Instr} {s : State} {rd : RegIdx} {out : Word × Bool} {Table : Word → Bool → Prop}
    (hexec : exec i s = .next (s.writeResult rd (shiftOut s.sr out))) (htable : Table out.1 out.2) :
    ∃ t, exec i s = .next t ∧ Table (t.x rd) t.sr.c ∧ NZOf (t.x rd) t ∧ t.sr.v = s.sr.v ∧
      SameRegsBut rd s t ∧ Retired s t := by
  obtain ⟨hrd, hframe⟩ := s.writeResult_frame rd (shiftOut s.sr out) (shiftOut_control s.sr out)
  exact ⟨_, hexec, by rwa [hrd], s.writeResult_NZOf rd _ out.1, rfl, hframe⟩

/-- Settles O31. -/
theorem lslImmShiftsLeft : Obligations.LslImmShiftsLeft := fun imm5 rs _ s =>
  shift_effect (Table := LslTable (s.x rs) imm5.toNat s.sr.c) rfl (shiftLSL_table ..)

/-- Settles O32: the amount is at least 1, so N is clear. -/
theorem lsrImmShiftsRight : Obligations.LsrImmShiftsRight := by
  intro imm5 rs rd s
  obtain ⟨t, ht, htable, hnz, hframe⟩ := shift_effect (i := .lsrImm imm5 rs rd) (s := s) rfl
    (Table := LsrTable (s.x rs) (rightShiftAmount imm5) s.sr.c) (shiftLSR_table ..)
  exact ⟨t, ht, rightShiftAmount_eq imm5 ▸ htable, hnz,
    hnz.1.trans (htable.getLsbD_31 (rightShiftAmount_pos imm5)), hframe⟩

/-- Settles O33: the sign fill keeps N at bit 31 of the value. -/
theorem asrImmShiftsRightWithSign : Obligations.AsrImmShiftsRightWithSign := by
  intro imm5 rs rd s
  obtain ⟨t, ht, htable, hnz, hframe⟩ := shift_effect (i := .asrImm imm5 rs rd) (s := s) rfl
    (Table := AsrTable (s.x rs) (rightShiftAmount imm5) s.sr.c) (shiftASR_table ..)
  exact ⟨t, ht, rightShiftAmount_eq imm5 ▸ htable, hnz, hnz.1.trans htable.getLsbD_31, hframe⟩

/-- Settles O40. -/
theorem aluLslShiftsByARegister : Obligations.AluLslShiftsByARegister := fun rs rd s =>
  ⟨decodeWord_encode (.aluLsl rs rd) rfl,
    shift_effect (Table := LslTable (s.x rd) _ s.sr.c) rfl (registerAmount_eq (s.x rs) ▸ shiftLSL_table ..)⟩

/-- Settles O41. -/
theorem aluLsrShiftsByARegister : Obligations.AluLsrShiftsByARegister := fun rs rd s =>
  ⟨decodeWord_encode (.aluLsr rs rd) rfl,
    shift_effect (Table := LsrTable (s.x rd) _ s.sr.c) rfl (registerAmount_eq (s.x rs) ▸ shiftLSR_table ..)⟩

/-- Settles O42. -/
theorem aluAsrShiftsByARegister : Obligations.AluAsrShiftsByARegister := fun rs rd s =>
  ⟨decodeWord_encode (.aluAsr rs rd) rfl,
    shift_effect (Table := AsrTable (s.x rd) _ s.sr.c) rfl (registerAmount_eq (s.x rs) ▸ shiftASR_table ..)⟩

/-- Settles O43. -/
theorem aluRorRotatesByARegister : Obligations.AluRorRotatesByARegister := fun rs rd s =>
  shift_effect (Table := RorTable (s.x rd) _) rfl (registerAmount_eq (s.x rs) ▸ rotROR_table ..)

end Sys2Proof.Machine
end

