-- ==== Sys2Proof/Proofs/Arithmetic.lean ====
section
/-! SUPPORT. Additions, subtractions, compares, the move and the negation: results and flags in numbers (R119 to R123, R130 to
R138, R146, R147, R150 to R152). -/

namespace Sys2Proof.Machine

/-! ### The results and flags of `AddC` and `SubC` -/

/-- Bit 31 as a comparison of numbers. -/
theorem getLsbD_31_eq_le (v : Word) : v.getLsbD 31 = decide (2 ^ 31 ≤ v.toNat) := by
  rw [show v.getLsbD 31 = v.msb by simp [BitVec.msb_eq_getLsbD_last], BitVec.msb_eq_decide]

theorem addC_fst_toNat (sr : StatusRegister) (a b : Word) (cin : Bool) :
    (addC sr a b cin).1.toNat = (a.toNat + b.toNat + cin.toNat) % 2 ^ 32 := sum33_low a b cin

theorem addC_c (sr : StatusRegister) (a b : Word) (cin : Bool) :
    (addC sr a b cin).2.c = decide (2 ^ 32 ≤ a.toNat + b.toNat + cin.toNat) := sum33_carry a b cin

/-- Subtraction adds the complement (R120). -/
theorem subC_fst_toNat (sr : StatusRegister) (a b : Word) (cin : Bool) :
    (subC sr a b cin).1.toNat = (a.toNat + (2 ^ 32 - 1 - b.toNat) + cin.toNat) % 2 ^ 32 := by
  rw [← BitVec.toNat_not]
  exact sum33_low a (~~~b) cin

/-- C after a subtraction: no borrow (R120, R123). -/
theorem subC_c (sr : StatusRegister) (a b : Word) (cin : Bool) :
    (subC sr a b cin).2.c = decide (b.toNat + (1 - cin.toNat) ≤ a.toNat) := by
  have hcarry : (subC sr a b cin).2.c = _ := sum33_carry a (~~~b) cin
  have := b.isLt
  have : cin.toNat ≤ 1 := Bool.toNat_le cin
  rw [hcarry, decide_eq_decide, BitVec.toNat_not]
  omega

theorem addC_fst (sr : StatusRegister) (a b : Word) (cin : Bool) : (addC sr a b cin).1 = sumWord a b cin := by
  apply BitVec.eq_of_toNat_eq
  rw [addC_fst_toNat, sumWord, BitVec.toNat_ofNat]

theorem subC_fst (sr : StatusRegister) (a b : Word) (cin : Bool) : (subC sr a b cin).1 = differenceWord a b cin := by
  apply BitVec.eq_of_toNat_eq
  have := b.isLt
  have : cin.toNat ≤ 1 := Bool.toNat_le cin
  rw [subC_fst_toNat, differenceWord, BitVec.toNat_ofInt]
  omega

theorem addC_flags {sr : StatusRegister} {a b : Word} {cin : Bool} {t : State} (h : t.sr = (addC sr a b cin).2) :
    AddFlags a b cin t := by
  have hr := addC_fst sr a b cin
  refine ⟨?_, h ▸ addC_c sr a b cin, ?_⟩
  · rw [NZOf, h, ← hr]
    exact ⟨rfl, rfl⟩
  · rw [h, ← hr, ← getLsbD_31_eq_neg, ← getLsbD_31_eq_neg, ← getLsbD_31_eq_neg]
    rfl

theorem subC_flags {sr : StatusRegister} {a b : Word} {cin : Bool} {t : State} (h : t.sr = (subC sr a b cin).2) :
    SubFlags a b cin t := by
  have hr := subC_fst sr a b cin
  refine ⟨?_, h ▸ subC_c sr a b cin, ?_⟩
  · rw [NZOf, h, ← hr]
    exact ⟨rfl, rfl⟩
  · rw [h, ← hr, ← getLsbD_31_eq_neg, ← getLsbD_31_eq_neg, ← getLsbD_31_eq_neg]
    rfl

/-! ### The instructions -/

section
variable {i : Instr} {s : State} {rd : RegIdx} {a b : Word} {cin : Bool}

/-- An instruction that retires `AddC` writes the sum and its flags, and nothing else. -/
theorem add_effect (hexec : exec i s = .next (s.writeResult rd (addC s.sr a b cin))) :
    ∃ t, exec i s = .next t ∧ t.x rd = sumWord a b cin ∧ AddFlags a b cin t ∧ SameRegsBut rd s t ∧ Retired s t := by
  obtain ⟨hrd, hframe⟩ := s.writeResult_frame rd (addC s.sr a b cin) (addC_control s.sr a b cin)
  exact ⟨_, hexec, hrd.trans (addC_fst s.sr a b cin), addC_flags rfl, hframe⟩

/-- An instruction that retires `SubC` writes the difference and its flags, and nothing else. -/
theorem sub_effect (hexec : exec i s = .next (s.writeResult rd (subC s.sr a b cin))) :
    ∃ t, exec i s = .next t ∧ t.x rd = differenceWord a b cin ∧ SubFlags a b cin t ∧
      SameRegsBut rd s t ∧ Retired s t := by
  obtain ⟨hrd, hframe⟩ := s.writeResult_frame rd (subC s.sr a b cin) (subC_control s.sr a b cin)
  exact ⟨_, hexec, hrd.trans (subC_fst s.sr a b cin), subC_flags rfl, hframe⟩

/-- A compare by `SubC` writes its flags and no register. -/
theorem subCompare_effect (hexec : exec i s = .next (s.writeFlags (subC s.sr a b cin))) :
    ∃ t, exec i s = .next t ∧ SubFlags a b cin t ∧ SameRegs s t ∧ Retired s t :=
  ⟨_, hexec, subC_flags rfl, s.writeFlags_frame _ (subC_control s.sr a b cin)⟩

/-- A compare by `AddC` writes its flags and no register. -/
theorem addCompare_effect (hexec : exec i s = .next (s.writeFlags (addC s.sr a b cin))) :
    ∃ t, exec i s = .next t ∧ AddFlags a b cin t ∧ SameRegs s t ∧ Retired s t :=
  ⟨_, hexec, addC_flags rfl, s.writeFlags_frame _ (addC_control s.sr a b cin)⟩

end

theorem zextImm3_eq (imm3 : BitVec 3) : zextImm3 imm3 = BitVec.ofNat 32 imm3.toNat := (BitVec.ofNat_toNat 32 imm3).symm

theorem zextImm8_eq (imm8 : BitVec 8) : zextImm8 imm8 = BitVec.ofNat 32 imm8.toNat := (BitVec.ofNat_toNat 32 imm8).symm

/-- Settles O34: an immediate is zero-extended, which is its number as a word. -/
theorem additionsAddAndSetAllFlags : Obligations.AdditionsAddAndSetAllFlags :=
  ⟨fun _ _ _ _ => add_effect rfl, fun imm3 _ _ _ => zextImm3_eq imm3 ▸ add_effect rfl,
    fun _ imm8 _ => zextImm8_eq imm8 ▸ add_effect rfl⟩

/-- Settles O35: as O34. -/
theorem subtractionsSubtractAndSetAllFlags : Obligations.SubtractionsSubtractAndSetAllFlags :=
  ⟨fun _ _ _ _ => sub_effect rfl, fun imm3 _ _ _ => zextImm3_eq imm3 ▸ sub_effect rfl,
    fun _ imm8 _ => zextImm8_eq imm8 ▸ sub_effect rfl⟩

/-- Settles O36. -/
theorem comparesSetFlagsAndNoRegister : Obligations.ComparesSetFlagsAndNoRegister :=
  ⟨fun _ imm8 _ => zextImm8_eq imm8 ▸ subCompare_effect rfl, fun _ _ _ => subCompare_effect rfl,
    fun _ _ _ => addCompare_effect rfl⟩

/-- Settles O44: the carry-in is the one before the instruction. -/
theorem carryArithmeticReadsTheOldCarry : Obligations.CarryArithmeticReadsTheOldCarry := fun _ _ _ =>
  ⟨add_effect rfl, sub_effect rfl⟩

/-- Settles O37. -/
theorem movImm8LoadsTheZeroExtendedByte : Obligations.MovImm8LoadsTheZeroExtendedByte := by
  intro rd imm8 s
  obtain ⟨hrd, hframe⟩ := s.writeResult_frame rd (moveOut s.sr imm8) (moveOut_control s.sr imm8)
  refine ⟨_, rfl, ?_, rfl, ?_, rfl, rfl, hframe⟩
  · rw [hrd]
    exact BitVec.toNat_setWidth_of_le (by decide)
  · exact decide_eq_decide.mpr BitVec.toNat_inj.symm

/-- A word is its own negation exactly at 0 and at the minimum (R150). -/
theorem zero_sub_eq_self_iff (v : Word) : 0#32 - v = v ↔ v.toNat = 0 ∨ v.toNat = 2 ^ 31 := by
  rw [← BitVec.toNat_inj, BitVec.toNat_sub, BitVec.toNat_ofNat]
  omega

/-- Settles O45: the form retires `negOut`, whose V says that the value is its own negation. -/
theorem negOverflowsAtZeroAndTheMinimum : Obligations.NegOverflowsAtZeroAndTheMinimum := by
  intro rs rd s
  obtain ⟨hrd, hframe⟩ := s.writeResult_frame rd (negOut s.sr (s.x rs)) (negOut_control s.sr _)
  refine ⟨_, rfl, ?_, ?_, s.writeResult_NZOf rd _ _, rfl, hframe⟩
  · rw [hrd, negOut, BitVec.toNat_sub, BitVec.toNat_ofNat]
    rfl
  · exact decide_eq_decide.mpr (zero_sub_eq_self_iff (s.x rs))

/-! ### Signed overflow, and arithmetic on two words -/

/-- Settles O59: the signs of the operands and of the result modulo 2^32, against the exact sum or difference. -/
theorem overflowIsSignedOverflow : Obligations.OverflowIsSignedOverflow := by
  intro sr a b cin
  have ha := a.isLt
  have hb := b.isLt
  have hc : cin.toNat ≤ 1 := Bool.toNat_le cin
  constructor
  · have hv : (addC sr a b cin).2.v = (a.getLsbD 31 == b.getLsbD 31 && (addC sr a b cin).1.getLsbD 31 != a.getLsbD 31) := rfl
    rw [hv]
    simp only [getLsbD_31_eq_le, addC_fst_toNat, BitVec.toInt_eq_toNat_cond, Bool.and_eq_true, beq_iff_eq, bne_iff_ne,
      decide_eq_decide, ne_eq]
    omega
  · have hv : (subC sr a b cin).2.v = (a.getLsbD 31 != b.getLsbD 31 && (subC sr a b cin).1.getLsbD 31 != a.getLsbD 31) := rfl
    rw [hv]
    simp only [getLsbD_31_eq_le, subC_fst_toNat, BitVec.toInt_eq_toNat_cond, Bool.and_eq_true, bne_iff_ne,
      decide_eq_decide, ne_eq]
    omega

/-- Settles O60: the carry of the low words is what the sum of the pairs carries into the high word, and so for the borrow. -/
theorem multiWordArithmeticChainsThroughCarry : Obligations.MultiWordArithmeticChainsThroughCarry := by
  intro sr aLo aHi bLo bHi
  have haLo := aLo.isLt
  have hbLo := bLo.isLt
  have haHi := aHi.isLt
  have hbHi := bHi.isLt
  constructor <;> apply BitVec.eq_of_toNat_eq
  · simp only [setAddFlags, setAddCarryFlags, append_toNat, BitVec.toNat_add, addC_fst_toNat, addC_c, Bool.toNat_false]
    by_cases hcarry : 2 ^ 32 ≤ aLo.toNat + bLo.toNat + 0
    · simp only [hcarry, decide_true, Bool.toNat_true]
      omega
    · simp only [hcarry, decide_false, Bool.toNat_false]
      omega
  · simp only [setSubFlags, setSubCarryFlags, append_toNat, BitVec.toNat_sub, subC_fst_toNat, subC_c, Bool.toNat_true]
    by_cases hborrow : bLo.toNat + (1 - 1) ≤ aLo.toNat
    · simp only [hborrow, decide_true, Bool.toNat_true]
      omega
    · simp only [hborrow, decide_false, Bool.toNat_false]
      omega

end Sys2Proof.Machine
end

