-- ==== Sys2Proof/Proofs/FlagAndRegisterTables.lean ====
section
/-! SUPPORT. The tables of R15 and R23 over all 59 targets: which flags and registers an instruction writes, and what it reads. -/

namespace Sys2Proof.Machine

/-! ### The flags an instruction writes (R23) -/

/-- The row of R23 for `i`, between the states before and after. -/
def FlagRow (i : Instr) (s t : State) : Prop :=
  (writesNZ i = false → t.sr.n = s.sr.n ∧ t.sr.z = s.sr.z) ∧
  (writesC s i = false → t.sr.c = s.sr.c) ∧ (writesV i = false → t.sr.v = s.sr.v) ∧
  (∀ rd, regWritten i = some rd → NZOf (t.x rd) t)

section
variable {i : Instr} {s : State} {out : Word × StatusRegister}

/-- Retiring a result that comes with its own N and Z. -/
theorem flagRow_writeResult {rd : RegIdx} (hrd : regWritten i = some rd) (hnz : writesNZ i = true)
    (hn : out.2.n = out.1.getLsbD 31) (hz : out.2.z = (out.1 == 0#32))
    (hc : writesC s i = false → out.2.c = s.sr.c) (hv : writesV i = false → out.2.v = s.sr.v) :
    FlagRow i s (s.writeResult rd out) := by
  refine ⟨fun h => by simp [hnz] at h, hc, hv, fun rd' hrd' => ?_⟩
  obtain rfl : rd = rd' := by simpa [hrd] using hrd'
  rw [NZOf, State.writeResult_x, if_pos rfl]
  exact ⟨hn, hz⟩

/-- Retiring flags alone. -/
theorem flagRow_writeFlags (hrd : regWritten i = none) (hnz : writesNZ i = true)
    (hc : writesC s i = false → out.2.c = s.sr.c) (hv : writesV i = false → out.2.v = s.sr.v) :
    FlagRow i s (s.writeFlags out) :=
  ⟨fun h => by simp [hnz] at h, hc, hv, fun rd h => by simp [hrd] at h⟩

theorem flagRow_raise {e : Event} (hrd : regWritten i = none) : FlagRow i s (s.raise e) :=
  ⟨fun _ => ⟨rfl, rfl⟩, fun _ => rfl, fun _ => rfl, fun rd h => by simp [hrd] at h⟩

end

/-- The amount of a register shift that does not write C (R23). -/
theorem registerAmount_eq_zero {v : Word} (h : (v.extractLsb' 0 8 != 0#8) = false) : registerAmount v = 0 := by
  have : v.extractLsb' 0 8 = 0#8 := by simpa using h
  rw [registerAmount, this]
  rfl

/-- The amount of a left shift by immediate that does not write C (R23). -/
theorem leftShiftAmount_eq_zero {imm5 : BitVec 5} (h : (imm5 != 0#5) = false) : leftShiftAmount imm5 = 0 := by
  have : imm5 = 0#5 := by simpa using h
  rw [leftShiftAmount, this]
  rfl

theorem zextImm8_eq_zero_iff (imm8 : BitVec 8) : zextImm8 imm8 = 0#32 ↔ imm8 = 0#8 := by
  rw [zextImm8, ← BitVec.toNat_inj, BitVec.toNat_setWidth_of_le (by decide), ← BitVec.toNat_inj]
  rfl

/-- An instruction that is not implemented raises its event. -/
theorem eq_raise_of_not_implemented {i : Instr} {s t : State} (h : ExecShape i s t)
    (hi : i.target.isImplemented = false) : regWritten i = none ∧ ∃ e, t = s.raise e := by
  cases h with
  | result _ _ _ hi' => simp [hi] at hi'
  | flags _ _ hi' => simp [hi] at hi'
  | report e hw => exact ⟨hw, e, rfl⟩

/-- Settles O52: by what each instruction retires; a shift by 0 keeps C by the first row of its table. -/
theorem onlyTheNamedFlagsChange : Obligations.OnlyTheNamedFlagsChange := by
  intro i s t h
  change FlagRow i s t
  have hshape := shape_of_exec i s t h
  cases hi : i.target.isImplemented with
  | false =>
    obtain ⟨hrd, e, rfl⟩ := eq_raise_of_not_implemented hshape hi
    exact flagRow_raise hrd
  | true =>
    cases i
    case lslImm imm5 rs rd =>
      cases h
      exact flagRow_writeResult rfl rfl rfl rfl
        (fun hc => ((shiftLSL_table ..).1 (leftShiftAmount_eq_zero hc)).2) (fun _ => rfl)
    case aluLsl rs rd =>
      cases h
      exact flagRow_writeResult rfl rfl rfl rfl
        (fun hc => ((shiftLSL_table ..).1 (registerAmount_eq_zero hc)).2) (fun _ => rfl)
    case aluLsr rs rd =>
      cases h
      exact flagRow_writeResult rfl rfl rfl rfl
        (fun hc => ((shiftLSR_table ..).1 (registerAmount_eq_zero hc)).2) (fun _ => rfl)
    case aluAsr rs rd =>
      cases h
      exact flagRow_writeResult rfl rfl rfl rfl
        (fun hc => ((shiftASR_table ..).1 (registerAmount_eq_zero hc)).2) (fun _ => rfl)
    case lsrImm | asrImm | aluRor | aluMul =>
      cases h
      exact flagRow_writeResult rfl rfl rfl rfl nofun (fun _ => rfl)
    case addReg | subReg | addImm3 | subImm3 | addImm8 | subImm8 | aluAdc | aluSbc =>
      cases h
      exact flagRow_writeResult rfl rfl rfl rfl nofun nofun
    case aluAnd | aluEor | aluOrr | aluBic | aluMvn =>
      cases h
      exact flagRow_writeResult rfl rfl rfl rfl (fun _ => rfl) (fun _ => rfl)
    case aluNeg =>
      cases h
      exact flagRow_writeResult rfl rfl rfl rfl (fun _ => rfl) nofun
    case movImm8 rd imm8 =>
      cases h
      refine flagRow_writeResult rfl rfl ?n ?z (fun _ => rfl) (fun _ => rfl)
      case n => simp [moveOut, zextImm8]
      case z => rw [Bool.eq_iff_iff, moveOut, beq_iff_eq, beq_iff_eq, zextImm8_eq_zero_iff]
    case cmpImm8 | aluCmp | aluCmn =>
      cases h
      exact flagRow_writeFlags rfl rfl nofun nofun
    case aluTst =>
      cases h
      exact flagRow_writeFlags rfl rfl (fun _ => rfl) (fun _ => rfl)
    all_goals exact absurd hi Bool.false_ne_true

/-! ### The registers and flags an instruction reads (R15, R24) -/

/-- Equal results leave equal status registers and equal values in the register written. -/
theorem writeResult_agree {i : Instr} {s s' : State} {rd : RegIdx} {out out' : Word × StatusRegister}
    (hrd : regWritten i = some rd) (h : out = out') :
    (s.writeResult rd out).sr = (s'.writeResult rd out').sr ∧
      ∀ r, regWritten i = some r → (s.writeResult rd out).x r = (s'.writeResult rd out').x r := by
  subst h
  refine ⟨rfl, fun r hr => ?_⟩
  obtain rfl : rd = r := by simpa [hrd] using hr
  simp

/-- Settles O53: by the shape of the execution, and by what each instruction computes from the registers it names. -/
theorem onlyTheNamedRegistersAreReadOrWritten : Obligations.OnlyTheNamedRegistersAreReadOrWritten := by
  refine ⟨fun i s t h j hj => ?_, fun i s s' t t' hsr hx ht ht' => ?_⟩
  · cases shape_of_exec i s t h with
    | result rd out hrd =>
      have hne : j ≠ rd := fun heq => hj (heq ▸ hrd)
      rw [State.writeResult_x, if_neg hne]
    | flags => rfl
    | report => rfl
  · cases hi : i.target.isImplemented with
    | false =>
      obtain ⟨hrd, e, rfl⟩ := eq_raise_of_not_implemented (shape_of_exec i s t ht) hi
      obtain ⟨-, e', rfl⟩ := eq_raise_of_not_implemented (shape_of_exec i s' t' ht') hi
      exact ⟨hsr, fun rd h => by simp [hrd] at h⟩
    | true =>
      cases i
      case cmpImm8 | aluTst | aluCmp | aluCmn =>
        simp only [regsRead, List.forall_mem_cons] at hx
        cases ht
        cases ht'
        refine ⟨?_, nofun⟩
        simp only [State.writeFlags_sr, hsr, hx]
      case lslImm | lsrImm | asrImm | addReg | subReg | addImm3 | subImm3 | movImm8 | addImm8 | subImm8 | aluAnd | aluEor |
          aluLsl | aluLsr | aluAsr | aluAdc | aluSbc | aluRor | aluNeg | aluOrr | aluMul | aluBic | aluMvn =>
        simp only [regsRead, List.forall_mem_cons] at hx
        cases ht
        cases ht'
        exact writeResult_agree rfl (by simp only [hsr, hx])
      all_goals exact absurd hi Bool.false_ne_true

/-- Settles O54: with the same registers and C, what an instruction computes is the same term, but for the N, Z, V that it does
not write. -/
theorem onlyTheCarryFlagIsRead : Obligations.OnlyTheCarryFlagIsRead := by
  intro i ⟨_, ⟨_, _, _, _, _, _, _, _⟩, _, _, _⟩ ⟨_, ⟨_, _, _, _, _, _, _, _⟩, _, _, _⟩ t t' hregs hc ht ht'
  cases hregs
  cases hc
  cases i
  case addReg | subReg | addImm3 | subImm3 | cmpImm8 | addImm8 | subImm8 | aluAdc | aluSbc | aluNeg | aluCmp | aluCmn =>
    cases ht
    cases ht'
    exact ⟨rfl, rfl, fun _ => ⟨rfl, rfl⟩, fun _ => rfl⟩
  case lslImm | lsrImm | asrImm | movImm8 | aluAnd | aluEor | aluLsl | aluLsr | aluAsr | aluRor | aluTst | aluOrr | aluMul |
      aluBic | aluMvn =>
    cases ht
    cases ht'
    exact ⟨rfl, rfl, fun _ => ⟨rfl, rfl⟩, nofun⟩
  all_goals
    cases ht
    cases ht'
    exact ⟨rfl, rfl, nofun, nofun⟩

end Sys2Proof.Machine
end
